-- ==== Sys2Proof/Word.lean ====
section
/-! DEFINITION. The word types of the core (00_scope.md R7, R10).

A word is an unsigned 32-bit number; `x + y` on words is `add32` of R11 (addition modulo 2^32),
and `&&&`, `^^^`, `|||`, `~~~` are the bitwise operators of R11 on all 32 bits. -/

namespace Sys2Proof

/-- A 32-bit unsigned word (R10). -/
abbrev Word := BitVec 32

/-- An 8-bit byte; bytes occur only on the host's side (20_memory.md R53). -/
abbrev Byte := BitVec 8

/-- The 512-bit operand of NEXT (10_state.md R20, 20_memory.md R52). -/
abbrev Block := BitVec 512

end Sys2Proof
end

