-- ==== Sys2Proof/Syntax.lean ====
section
/-! DEFINITION. The operations of the core (30_encoding.md R70) and the host's trace lines (R81). -/

namespace Sys2Proof

/-- One constructor per row of `opcode_table.json`. The selector bits a format does not look at
(R73, R78) are kept as operands, so that an instruction has exactly one encoding (log 7). -/
inductive Instr where
  /-- RESET, format R: `phase` and `cmd` are the ignored bits of the selector (R90). -/
  | reset (phase cmd : BitVec 2)
  /-- NOP, format C (R91). -/
  | nop
  /-- INIT, format C (R92). -/
  | init
  /-- NEXT, format C, with the 512-bit operand of R74 (R93). -/
  | next (block : Block)
  /-- RSVD, format C, the reserved command code (R94). -/
  | rsvd
  /-- WEXP, format S: `cmd` is ignored (R117). -/
  | wexp (cmd : BitVec 2)
  /-- ROUND, format S: `cmd` is ignored (R136). -/
  | round (cmd : BitVec 2)
  /-- HACC, format S: `cmd` is ignored (R152). -/
  | hacc (cmd : BitVec 2)
  deriving DecidableEq, Repr

/-- What the host drives on the input ports at one step (10_state.md R20). An undriven or unknown
bit cannot be expressed (U6, log 12). -/
structure Pins where
  reset : Bool
  cmd : BitVec 2
  block : Block
  deriving DecidableEq, Repr

/-- A line of the trace notation (R81), read: what the host means to drive at one step. -/
inductive HostCommand where
  | reset
  | nop
  | init
  | next (block : Block)
  | rsvd
  deriving DecidableEq, Repr

/-- A line of the trace notation as written (R81): `NEXT` carries its digits as characters. -/
inductive TraceLine where
  | reset
  | nop
  | init
  | next (digits : List Char)
  | rsvd
  deriving DecidableEq, Repr

/-- The pseudo-operations of R82; the message of `DIGEST` is a list of bytes. -/
inductive Pseudo where
  | nops (n : Nat)
  | wait
  | hashblock (block : Block)
  | digest (message : List Byte)
  deriving DecidableEq, Repr

end Sys2Proof
end

