-- ==== Sys2Proof/WellFormed.lean ====
section
/-! DEFINITION. Which instructions and which trace lines are well formed. -/

namespace Sys2Proof

/-- Every instruction is well formed: no encoding is illegal and every value of `block` is a legal
operand of NEXT (30_encoding.md R76). The widths of the operands are in their types. -/
def Instr.wellFormed : Instr → Bool
  | .reset _ _ => true
  | .nop => true
  | .init => true
  | .next _ => true
  | .rsvd => true
  | .wexp _ => true
  | .round _ => true
  | .hacc _ => true

/-- A hexadecimal digit. DESIGN CHOICE (log 19): both cases are read. -/
def isHexDigit (c : Char) : Bool :=
  ('0' ≤ c && c ≤ '9') || ('a' ≤ c && c ≤ 'f') || ('A' ≤ c && c ≤ 'F')

/-- R81: the digits of a `NEXT` line may be grouped with spaces or underscores. -/
def ungroup (digits : List Char) : List Char :=
  digits.filter fun c => !(c == ' ' || c == '_')

/-- R81: a `NEXT` line carries exactly 128 hexadecimal digits; the other lines carry nothing. -/
def TraceLine.wellFormed : TraceLine → Bool
  | .reset => true
  | .nop => true
  | .init => true
  | .next digits => (ungroup digits).length == 128 && (ungroup digits).all isHexDigit
  | .rsvd => true

end Sys2Proof
end

