-- ==== Sys2Proof/Decode.lean ====
section
/-! DEFINITION. The selector, the decoder of R80, the encoder, and both over bytes.

BYTES. The spec has no stored instructions. Where an instruction is written as bytes it is the
selector in bits 4:0 of the first byte (bits 7:5 zero) and, for NEXT, the 64 bytes of its block
after it, byte 0 of R52 first. DESIGN CHOICE (log 6). -/

namespace Sys2Proof

/-- A row of `opcode_table.json`, in the columns of R71. -/
structure OpcodeRow where
  mnemonic : String
  mask : BitVec 5
  value : BitVec 5
  deriving DecidableEq, Repr

/-- The table of 30_encoding.md R71. -/
def opcodeTable : List OpcodeRow :=
  [⟨"RESET", 0b10000, 0b10000⟩, ⟨"NOP", 0b11111, 0b00000⟩, ⟨"INIT", 0b11111, 0b00001⟩,
   ⟨"NEXT", 0b11111, 0b00010⟩, ⟨"RSVD", 0b11111, 0b00011⟩, ⟨"WEXP", 0b11100, 0b00100⟩,
   ⟨"ROUND", 0b11100, 0b01000⟩, ⟨"HACC", 0b11100, 0b01100⟩]

/-- R71: "A value `s` matches a row when `(s & mask) = match`." -/
def OpcodeRow.selects (r : OpcodeRow) (sel : BitVec 5) : Bool :=
  (sel &&& r.mask) == r.value

/-- The mnemonic of the row an instruction stands for. -/
def Instr.mnemonic : Instr → String
  | .reset _ _ => "RESET"
  | .nop => "NOP"
  | .init => "INIT"
  | .next _ => "NEXT"
  | .rsvd => "RSVD"
  | .wexp _ => "WEXP"
  | .round _ => "ROUND"
  | .hacc _ => "HACC"

/-- R71: `sel[4:0] = reset ‖ phase[1:0] ‖ cmd[1:0]`. -/
def selector (reset : Bool) (phase cmd : BitVec 2) : BitVec 5 :=
  BitVec.ofBool reset ++ phase ++ cmd

/-- `sel[3:2]`. -/
def selPhase (sel : BitVec 5) : BitVec 2 := sel.extractLsb' 2 2

/-- `sel[1:0]`. -/
def selCmd (sel : BitVec 5) : BitVec 2 := sel.extractLsb' 0 2

/-- The decoder of R80, total; `blk` is the port `block`, looked at by NEXT alone. -/
def decode (sel : BitVec 5) (blk : Block) : Instr :=
  if sel.getLsbD 4 then .reset (selPhase sel) (selCmd sel)
  else if selPhase sel = 0b01 then .wexp (selCmd sel)
  else if selPhase sel = 0b10 then .round (selCmd sel)
  else if selPhase sel = 0b11 then .hacc (selCmd sel)
  else if selCmd sel = 0b00 then .nop
  else if selCmd sel = 0b01 then .init
  else if selCmd sel = 0b10 then .next blk
  else .rsvd

/-- R52: byte `j` of a block is `block[511-8j : 504-8j]`, for `j` below 64 (elsewhere log 21). -/
def blockByte (blk : Block) (j : Nat) : Byte := blk.extractLsb' (504 - 8 * j) 8

/-- The 64 bytes of a block, byte 0 first. -/
def bytesOfBlock (blk : Block) : List Byte := (List.range 64).map (blockByte blk)

/-- The big-endian number of a list of bytes, after those already read into `acc`. -/
def bigEndianFrom (acc : Nat) : List Byte → Nat
  | [] => acc
  | b :: bs => bigEndianFrom (256 * acc + b.toNat) bs

/-- The big-endian number of a list of bytes. -/
def bigEndian (bytes : List Byte) : Nat := bigEndianFrom 0 bytes

theorem bigEndianFrom_lt (bytes : List Byte) (acc m : Nat) (h : acc < m) :
    bigEndianFrom acc bytes < m * 256 ^ bytes.length := by
  induction bytes generalizing acc m with
  | nil => simpa [bigEndianFrom] using h
  | cons b bs ih =>
    have hb := b.isLt
    have := ih (256 * acc + b.toNat) (256 * m) (by omega)
    rw [bigEndianFrom, List.length_cons, Nat.pow_succ]
    calc bigEndianFrom (256 * acc + b.toNat) bs < 256 * m * 256 ^ bs.length := this
      _ = m * (256 ^ bs.length * 256) := by ring

theorem bigEndian_take_lt (bytes : List Byte) : bigEndian (bytes.take 64) < 2 ^ 512 :=
  calc bigEndian (bytes.take 64)
      < 1 * 256 ^ (bytes.take 64).length := bigEndianFrom_lt _ 0 1 Nat.one_pos
    _ ≤ 1 * (2 ^ 8) ^ 64 := Nat.mul_le_mul_left 1
        (Nat.pow_le_pow_right (by decide) (List.length_take_le 64 bytes))
    _ = 2 ^ 512 := by rw [Nat.one_mul, ← Nat.pow_mul]

/-- R52: the block port, read as one number, is its 64 bytes read as a big-endian number. DESIGN CHOICE (log 21): of
a list of another length, which neither `decodeBytes` nor `segment` gives it, the first 64 bytes are read, fewer as
the low bytes of the number. -/
def blockOfBytes (bytes : List Byte) : Block :=
  BitVec.ofNatLT (bigEndian (bytes.take 64)) (bigEndian_take_lt bytes)

/-- The selector of an instruction (R71), don't-care bits as the instruction holds them. -/
def encodeSelector : Instr → BitVec 5
  | .reset phase cmd => 0b1#1 ++ phase ++ cmd
  | .nop => 0b00000
  | .init => 0b00001
  | .next _ => 0b00010
  | .rsvd => 0b00011
  | .wexp cmd => 0b001#3 ++ cmd
  | .round cmd => 0b010#3 ++ cmd
  | .hacc cmd => 0b011#3 ++ cmd

/-- The block an instruction carries; 0 for those that take none. -/
def Instr.operandBlock : Instr → Block
  | .next blk => blk
  | .reset _ _ | .nop | .init | .rsvd | .wexp _ | .round _ | .hacc _ => 0

/-- The words of an instruction as bytes. -/
def encode (i : Instr) : List Byte :=
  (encodeSelector i).setWidth 8 ::
    (match i with
     | .next blk => bytesOfBlock blk
     | .reset _ _ | .nop | .init | .rsvd | .wexp _ | .round _ | .hacc _ => [])

/-- Why a list of bytes is not an instruction. -/
inductive DecodeError where
  /-- There is no byte at all. -/
  | noSelector
  /-- Bits 7:5 of the first byte are not zero: it is no selector. -/
  | notASelector
  /-- A NEXT with fewer than 64 bytes of block (20_memory.md R54: one whole block). -/
  | shortBlock
  deriving DecidableEq, Repr

/-- Decode the instruction at the head of a list of bytes, total, with the rest of the list. -/
def decodeBytes : List Byte → Except DecodeError (Instr × List Byte)
  | [] => .error .noSelector
  | b :: rest =>
    if 32 ≤ b.toNat then .error .notASelector
    else if b.setWidth 5 = 0b00010#5 then
      if rest.length < 64 then .error .shortBlock
      else .ok (decode (b.setWidth 5) (blockOfBytes (rest.take 64)), rest.drop 64)
    else .ok (decode (b.setWidth 5) 0, rest)

/-- How many bytes the longest instruction has: NEXT with its block. -/
def longestInstr : Nat := 65

/-- The low `n` bytes of a number, the least significant first. -/
def lowBytes : Nat → Nat → List Byte
  | 0, _ => []
  | n + 1, w => BitVec.ofNat 8 w :: lowBytes n (w / 256)

/-- A word numbered as the opcode table numbers bits (bit 0 the least significant of the FIRST
byte), laid out as bytes up to the longest instruction; bits at and above `nbits` are 0. -/
def tableBytes (nbits w : Nat) : List Byte := lowBytes longestInstr (w % 2 ^ nbits)

/-- The instruction the decoder reads from a table word. -/
def decodeTableWord (nbits w : Nat) : Option Instr :=
  match decodeBytes (tableBytes nbits w) with
  | .ok (i, _) => some i
  | .error _ => none

end Sys2Proof
end

