-- ==== Sys2Proof/Config.lean ====
section
/-! DEFINITION. What the spec leaves open, as free values.

R8: no parameter of the core is left open for the model to take. What is left open is the value of
an unspecified data word (10_state.md R41, 93_implementation_defined.md U1, alternative `any value`). -/

namespace Sys2Proof

/-- The `n`-th free word: a constant with no body, so nothing can be proved of its value.
DESIGN CHOICE (log 1): an unspecified word holds some fixed but unknown word until it is next
written. -/
opaque Config.freeWord : Nat → Word

end Sys2Proof
end

