-- ==== Sys2Proof/Machine/State.lean ====
section
/-! DEFINITION. The state of the core (10_state.md R27 to R32, R42), the reasons a step could stop,
and the state after reset (R39). -/

namespace Sys2Proof.Machine

/-- The control state (R27). Its codes are given by `Phase.code` in Machine/Ops.lean. -/
inductive Phase where
  | idle
  | expand
  | compress
  | update
  deriving DecidableEq, Repr

/-- No operation can fail and the step function is total (60_exceptions.md R190), so there is no
fault. Raised by nothing; safe. -/
inductive Fault where
  deriving DecidableEq, Repr

/-- The refusals a spec recommends to a model (R192) are not taken (logs 8, 10, 11, 12). -/
inductive Refusal where
  /-- An instruction whose arm of `exec` has no meaning yet. Raised by no arm: every operation is
  modelled. Safe. -/
  | notModelled (mnemonic : String)
  deriving DecidableEq, Repr

/-- The state. The first six fields are the 2569 bits of R42. The last three are the model's own:
the input ports at the next step, those at the steps after it, and the count of free words drawn. -/
structure State where
  /-- The control state (R27). -/
  phase : Phase
  /-- The index counter (R28). -/
  t : BitVec 6
  /-- The status bit behind `digest_valid` (R29). -/
  dvalid : Bool
  /-- The hash state (R31). -/
  H : Vector Word 8
  /-- The working variables a..h (R30). -/
  v : Vector Word 8
  /-- The message schedule (R32). -/
  W : Vector Word 64
  /-- What the host drives at the next step (R20; log 3). -/
  pins : Pins
  /-- What the host drives at the steps after the next; when it is empty the pins keep their
  levels. DESIGN CHOICE (log 3). -/
  upcoming : List Pins
  /-- How many free words have been drawn (log 1). -/
  freeNext : Nat
  deriving DecidableEq, Repr

/-- The pins with no reset and no command: what the trace line `NOP` drives (30_encoding.md R81). -/
def idlePins : Pins := ⟨false, 0, 0⟩

/-- The state after a RESET step (R39): IDLE, `t` 0, `dvalid` 0; every data word is a free word.
DESIGN CHOICE (logs 2 and 4): which free words, and that no command is being driven. -/
def State.reset : State where
  phase := .idle
  t := 0
  dvalid := false
  H := Vector.ofFn fun k => Config.freeWord k.val
  v := Vector.ofFn fun k => Config.freeWord (8 + k.val)
  W := Vector.ofFn fun i => Config.freeWord (16 + i.val)
  pins := idlePins
  upcoming := []
  freeNext := 80

end Sys2Proof.Machine
end

