-- ==== Sys2Proof/Machine/Ops.lean ====
section
/-! DEFINITION. The named operations on the state: register writes, the control step of the sequenced
phases, free words, the selector and the input ports.

TAKING AN EXCEPTION and returning from one have no operation here: the core has no exception,
interrupt or trap of any kind (60_exceptions.md R190, R194, R196, R197). -/

namespace Sys2Proof.Machine

/-- The encoding of `phase` (R27). -/
def Phase.code : Phase → BitVec 2
  | .idle => 0b00
  | .expand => 0b01
  | .compress => 0b10
  | .update => 0b11

/-- The phase with a given code; all four codes are used (R27). -/
def phaseOfCode (c : BitVec 2) : Phase :=
  if c = 0b00 then .idle
  else if c = 0b01 then .expand
  else if c = 0b10 then .compress
  else .update

/-! ### Register writes -/

/-- Write the control state, the pair (`phase`, `t`) of R37. -/
def State.setControl (s : State) (p : Phase) (t : BitVec 6) : State := { s with phase := p, t := t }

/-- Write the status bit (R29). -/
def State.setDvalid (s : State) (b : Bool) : State := { s with dvalid := b }

/-- Write all eight words of the hash state (R31). -/
def State.setH (s : State) (H : Vector Word 8) : State := { s with H := H }

/-- Write all eight working variables (R30). -/
def State.setV (s : State) (v : Vector Word 8) : State := { s with v := v }

/-- Write the message schedule (R32). -/
def State.setW (s : State) (W : Vector Word 64) : State := { s with W := W }

/-- Set the count of free words drawn (log 1). -/
def State.setFree (s : State) (n : Nat) : State := { s with freeNext := n }

/-- Set what the host drives at the next step and at those after it (log 3). -/
def State.setPins (s : State) (p : Pins) (later : List Pins) : State :=
  { s with pins := p, upcoming := later }

/-! ### The control step of WEXP and ROUND (R117, R136) -/

/-- `t <- t + 1`, or at `t = 63` `t <- 0` and the next phase. -/
def State.advance (s : State) (next : Phase) : State :=
  if s.t = 63 then s.setControl next 0 else s.setControl s.phase (s.t + 1)

/-! ### Free words (R41, U1; log 1) -/

/-- `n` free words from number `start` on. -/
def freeWords (start n : Nat) : Vector Word n := Vector.ofFn fun k => Config.freeWord (start + k.val)

/-- Every word of `H`, `v` and `W` becomes unspecified: 80 free words are drawn. -/
def State.forgetData (s : State) : State :=
  (((s.setH (freeWords s.freeNext 8)).setV (freeWords (s.freeNext + 8) 8)).setW
    (freeWords (s.freeNext + 16) 64)).setFree (s.freeNext + 80)

/-! ### Selecting the operation of a step -/

/-- The selector the core sees (30_encoding.md R71): `reset` and `cmd` from the pins, `phase` from the
state before the step. -/
def State.selector (s : State) : BitVec 5 :=
  Sys2Proof.selector s.pins.reset s.phase.code s.pins.cmd

/-- The operation of the next step: the decoder on the selector and the port `block` (R80). -/
def State.fetch (s : State) : Instr := decode s.selector s.pins.block

/-- After a step the pins show what the host drives next; a host that drives nothing new leaves the
levels as they are. DESIGN CHOICE (log 3). -/
def State.advancePins (s : State) : State :=
  match s.upcoming with
  | [] => s
  | p :: later => s.setPins p later

/-- Let the host drive the given pins, one at each of the following steps, the first at the next
step, and after them what it drove before. -/
def State.drive (s : State) : List Pins → State
  | [] => s
  | p :: ps => s.setPins p (ps ++ s.pins :: s.upcoming)

/-- Arrange that the next step performs the instruction whose bytes are given: the pins show its
`reset` and `cmd` bits and its block, and `phase`, which selects the sequenced operations, holds its
phase bits (log 5). -/
def State.driveBytes (s : State) (bytes : List Byte) : State :=
  let sel := (bytes.headD 0).setWidth 5
  (s.setControl (phaseOfCode (selPhase sel)) s.t).setPins
    ⟨sel.getLsbD 4, selCmd sel, blockOfBytes ((bytes.drop 1).take 64)⟩ s.upcoming

end Sys2Proof.Machine
end

