-- ==== Sys2Proof/Machine/Operands.lean ====
section
/-! DEFINITION. Operand assembly (30_encoding.md R74, R75): the words of the block, the working
variables by their letters, and what ROUND reads at index `t`. -/

namespace Sys2Proof.Machine

/-- R52, R74: word `i` of the block is `block[511-32i : 480-32i]`, for `i` below 16 (elsewhere log 21). -/
def blockWord (blk : Block) (i : Nat) : Word := blk.extractLsb' (480 - 32 * i) 32

/-- `w_t = W[t]` (R119). -/
def State.wt (s : State) : Word := s.W[s.t.toNat]'s.t.isLt

/-- `k_t = K[t]` (R34, R36). -/
def State.kt (s : State) : Word := K[s.t.toNat]'s.t.isLt

/-- R30: `a = v[0]`. -/
def State.a (s : State) : Word := s.v[0]
/-- R30: `b = v[1]`. -/
def State.b (s : State) : Word := s.v[1]
/-- R30: `c = v[2]`. -/
def State.c (s : State) : Word := s.v[2]
/-- R30: `d = v[3]`. -/
def State.d (s : State) : Word := s.v[3]
/-- R30: `e = v[4]`. -/
def State.e (s : State) : Word := s.v[4]
/-- R30: `f = v[5]`. -/
def State.f (s : State) : Word := s.v[5]
/-- R30: `g = v[6]`. -/
def State.g (s : State) : Word := s.v[6]
/-- R30: `h = v[7]`. -/
def State.h (s : State) : Word := s.v[7]

end Sys2Proof.Machine
end

