-- ==== Sys2Proof/Machine/WordFns.lean ====
section
/-! DEFINITION. The pure word functions (00_scope.md R11, 41_msg_sched.md R110 to R114,
42_compress_round.md R130 to R133). All are total. -/

namespace Sys2Proof.Machine

/-- R111: logical right shift, zeros enter at the left. -/
def shr (x : Word) (n : Nat) : Word := x >>> n

/-- R11: left shift truncated to 32 bits. -/
def shl32 (x : Word) (n : Nat) : Word := x <<< n

/-- R110: right rotation by `n`, used for 0 < n < 32 only. Elsewhere U7 leaves it open; DESIGN CHOICE
(log 20): for n = 0 and for every n from 32 on the formula gives `x` itself, since `32 - n` is then the natural
number 0. For n above 32 that is not the rotation by n mod 32. -/
def rotr (x : Word) (n : Nat) : Word := shr x n ||| shl32 x (32 - n)

/-- R112: the small sigma 0 of the schedule. -/
def s0 (x : Word) : Word := rotr x 7 ^^^ rotr x 18 ^^^ shr x 3

/-- R113: the small sigma 1 of the schedule. -/
def s1 (x : Word) : Word := rotr x 17 ^^^ rotr x 19 ^^^ shr x 10

/-- R130: the big sigma 0 of the round. -/
def S0 (x : Word) : Word := rotr x 2 ^^^ rotr x 13 ^^^ rotr x 22

/-- R131: the big sigma 1 of the round. -/
def S1 (x : Word) : Word := rotr x 6 ^^^ rotr x 11 ^^^ rotr x 25

/-- R132: choose. -/
def ch (e f g : Word) : Word := (e &&& f) ^^^ (~~~e &&& g)

/-- R133: majority. -/
def maj (a b c : Word) : Word := (a &&& b) ^^^ (a &&& c) ^^^ (b &&& c)

end Sys2Proof.Machine
end

