-- ==== Sys2Proof/Machine/MsgSched.lean ====
section
/-! DEFINITION. The sub-block `sha256_msg_sched` (41_msg_sched.md): WLOAD, WEXP, `expand`. -/

namespace Sys2Proof.Machine

/-- WLOAD (R116): words 0 to 15 from the block, the others as they were. -/
def wload (blk : Block) (W : Vector Word 64) : Vector Word 64 :=
  Vector.ofFn fun i => if i.val < 16 then blockWord blk i.val else W[i.val]

/-- R117: `add32( W[t-16], s0(W[t-15]), W[t-7], s1(W[t-2]) )`, for `t` in 16..63. -/
def scheduleWord (W : Vector Word 64) (t : Nat) (_h16 : 16 ≤ t) (h64 : t < 64) : Word :=
  W[t - 16] + s0 W[t - 15] + W[t - 7] + s1 W[t - 2]

/-- WEXP (R117). A state with `t < 16` breaks R40 and is outside the spec (U5): there is no
`W[t-16]`, so the word written is a free one. DESIGN CHOICE (log 8). -/
def execWexp (s : State) : Host.Outcome State Fault Refusal :=
  if h : 16 ≤ s.t.toNat then
    .next ((s.setW (s.W.set s.t.toNat (scheduleWord s.W s.t.toNat h s.t.isLt) s.t.isLt)).advance .compress)
  else
    .next (((s.setW (s.W.set s.t.toNat (Config.freeWord s.freeNext) s.t.isLt)).setFree
      (s.freeNext + 1)).advance .compress)

/-- The schedule of a block with `j` derived words (R118): the load, then `W[16], ..., W[15+j]`.
The words not yet derived are 0 here and nothing reads them (log 15); `j` above 48 is as 48 (log 21). -/
def expandUpTo (blk : Block) : Nat → Vector Word 64
  | 0 => wload blk (Vector.ofFn fun _ => 0)
  | j + 1 =>
    let W := expandUpTo blk j
    if h : 16 + j < 64 then W.set (16 + j) (scheduleWord W (16 + j) (by omega) h) h else W

/-- `expand(blk)` (R118). -/
def expand (blk : Block) : Vector Word 64 := expandUpTo blk 48

end Sys2Proof.Machine
end

