-- ==== Sys2Proof/Machine/Commands.lean ====
section
/-! DEFINITION. Reset and the host commands (40_commands.md R90 to R94). -/

namespace Sys2Proof.Machine

/-- RESET (R90): the control state to its reset values, every data word unspecified. -/
def execReset (s : State) : Host.Outcome State Fault Refusal :=
  .next ((s.forgetData.setControl .idle 0).setDvalid false)

/-- NOP (R91): no assignment. -/
def execNop (s : State) : Host.Outcome State Fault Refusal := .next s

/-- INIT (R92), with its part HINIT (R151): `H <- IV`, `dvalid <- 0`. -/
def execInit (s : State) : Host.Outcome State Fault Refusal := .next ((s.setH IV).setDvalid false)

/-- NEXT (R93), with its parts WLOAD (R116) and VLOAD (R135). An unspecified H is copied like any
other (U2, log 11). -/
def execNext (blk : Block) (s : State) : Host.Outcome State Fault Refusal :=
  .next ((((s.setW (wload blk s.W)).setV s.H).setControl .expand 16).setDvalid false)

/-- RSVD (R94): no assignment, "exactly as NOP" (U4, log 10). -/
def execRsvd (s : State) : Host.Outcome State Fault Refusal := .next s

end Sys2Proof.Machine
end

