-- ==== Sys2Proof/Machine/CompressRound.lean ====
section
/-! DEFINITION. The sub-block `sha256_compress_round` (42_compress_round.md): ROUND, `round`, `rounds`.
Its part VLOAD (R135) is the copy of H into v in NEXT (Machine/Commands.lean). -/

namespace Sys2Proof.Machine

/-- R137: one round on the eight words (a, b, c, d, e, f, g, h). -/
def round (x : Vector Word 8) (k w : Word) : Vector Word 8 :=
  let temp1 := x[7] + S1 x[4] + ch x[4] x[5] x[6] + k + w
  let temp2 := S0 x[0] + maj x[0] x[1] x[2]
  #v[temp1 + temp2, x[0], x[1], x[2], x[3] + temp1, x[4], x[5], x[6]]

/-- `temp1` of R136. -/
def State.temp1 (s : State) : Word := s.h + S1 s.e + ch s.e s.f s.g + s.kt + s.wt

/-- `temp2` of R136. -/
def State.temp2 (s : State) : Word := S0 s.a + maj s.a s.b s.c

/-- ROUND (R136): all eight working variables at once, from the values before the step (R12). -/
def execRound (s : State) : Host.Outcome State Fault Refusal :=
  .next ((s.setV #v[s.temp1 + s.temp2, s.a, s.b, s.c, s.d + s.temp1, s.e, s.f, s.g]).advance .update)

/-- The first `j` rounds of R138, `x_j`; `j` above 64 is as 64 (log 21). -/
def roundsUpTo (x : Vector Word 8) (Wv : Vector Word 64) : Nat → Vector Word 8
  | 0 => x
  | i + 1 =>
    let y := roundsUpTo x Wv i
    if h : i < 64 then round y K[i] Wv[i] else y

/-- `rounds(x, Wv)`, the 64 rounds (R138). -/
def rounds (x : Vector Word 8) (Wv : Vector Word 64) : Vector Word 8 := roundsUpTo x Wv 64

end Sys2Proof.Machine
end

