-- ==== Sys2Proof/Machine/StateUpdate.lean ====
section
/-! DEFINITION. The sub-block `sha256_state_update` (43_state_update.md): HACC, `compress`,
`hash_blocks`. Its part HINIT (R151) is the load of IV in INIT (Machine/Commands.lean). -/

namespace Sys2Proof.Machine

/-- Eight independent additions modulo 2^32, no carry between lanes (R154). -/
def addLanes (x y : Vector Word 8) : Vector Word 8 := Vector.ofFn fun k => x[k.val] + y[k.val]

/-- HACC (R152). -/
def execHacc (s : State) : Host.Outcome State Fault Refusal :=
  .next (((s.setH (addLanes s.H s.v)).setDvalid true).setControl .idle s.t)

/-- `compress(Hin, blk)` (R155). -/
def compress (Hin : Vector Word 8) (blk : Block) : Vector Word 8 :=
  addLanes Hin (rounds Hin (expand blk))

/-- `hash_blocks(Hin, blocks)` (R159). -/
def hashBlocks (Hin : Vector Word 8) : List Block → Vector Word 8
  | [] => Hin
  | b :: bs => hashBlocks (compress Hin b) bs

end Sys2Proof.Machine
end

