-- ==== Sys2Proof/Machine/Dispatch.lean ====
section
/-! DEFINITION. `perform` of 30_encoding.md R80: the meaning of each operation. -/

namespace Sys2Proof.Machine

def exec (i : Instr) (s : State) : Host.Outcome State Fault Refusal :=
  match i with
  | .reset _ _ => Sys2Proof.Machine.execReset s
  | .nop => Sys2Proof.Machine.execNop s
  | .init => Sys2Proof.Machine.execInit s
  | .next blk => Sys2Proof.Machine.execNext blk s
  | .rsvd => Sys2Proof.Machine.execRsvd s
  | .wexp _ => Sys2Proof.Machine.execWexp s
  | .round _ => Sys2Proof.Machine.execRound s
  | .hacc _ => Sys2Proof.Machine.execHacc s

end Sys2Proof.Machine
end

