-- ==== Sys2Proof/Machine/Step.lean ====
section
/-! DEFINITION. One step of the core: one rising edge of `clk` (00_scope.md R14, 10_state.md R21). -/

namespace Sys2Proof.Machine

/-- R80: `step(state, reset, cmd, block) = perform(decode(reset, phase, cmd), state, block)`, the three
inputs being the pins of the state; afterwards the pins show what the host drives next. -/
def step (s : State) : Host.Outcome State Fault Refusal :=
  match exec s.fetch s with
  | .next t => .next t.advancePins
  | .fault r => .fault r
  | .refused r => .refused r

/-- `s` with an instruction of the opcode table's numbering placed where the next step takes its
operation from: the pins and, since three of the selector's bits are the core's own, `phase`. -/
def State.withFetchWord (s : State) (nbits w : Nat) : State := s.driveBytes (tableBytes nbits w)

end Sys2Proof.Machine
end

