-- ==== Sys2Proof/Machine/Flags.lean ====
section
/-! DEFINITION. The output ports (10_state.md R24 to R26). Reading one changes no state
(20_memory.md R55). No operation computes an arithmetic flag (60_exceptions.md R191). -/

namespace Sys2Proof.Machine

/-- R24: `ready = 1` if `phase = IDLE`. -/
def State.ready (s : State) : Bool := s.phase == .idle

/-- R25: `digest_valid` is the status bit. -/
def State.digestValid (s : State) : Bool := s.dvalid

/-- R26: `H[0] ‖ H[1] ‖ ... ‖ H[7]`. -/
def joinWords (H : Vector Word 8) : BitVec 256 :=
  H[0] ++ H[1] ++ H[2] ++ H[3] ++ H[4] ++ H[5] ++ H[6] ++ H[7]

/-- R26: `digest` is driven from H at all times. -/
def State.digest (s : State) : BitVec 256 := joinWords s.H

/-- Everything the host can see between two steps (R42). -/
structure Outputs where
  ready : Bool
  digestValid : Bool
  digest : BitVec 256
  deriving DecidableEq, Repr

/-- The output ports after a step, functions of the state (R60). -/
def State.outputs (s : State) : Outputs := ⟨s.ready, s.digestValid, s.digest⟩

end Sys2Proof.Machine
end

