-- ==== Sys2Proof/Machine/HostProtocol.lean ====
section
/-! DEFINITION. The host's duties (44_host_protocol.md): padding, segmentation, serialisation and the
digest function. No state of the core is involved. -/

namespace Sys2Proof.Machine

/-- The one refusal on the host's side (60_exceptions.md R192). -/
inductive HostRefusal where
  /-- A message of 2^61 bytes or more, refused before any command is issued (R167). -/
  | messageTooLong
  deriving DecidableEq, Repr

/-- R166: the number of zero bytes, `(55 - L) mod 64` with the non-negative remainder. -/
def padZeros (L : Nat) : Nat := (119 - L % 64) % 64

/-- R166: the number of blocks of the padded message. -/
def blockCount (L : Nat) : Nat := (L + 8) / 64 + 1

/-- R166: eight bytes, most significant first. DESIGN CHOICE (log 21): a number of 2^64 or more, which `pad` never
gives it, is taken modulo 2^64. -/
def be64 (n : Nat) : List Byte := (List.range 8).map fun j => BitVec.ofNat 8 (n / 2 ^ (8 * (7 - j)))

/-- R166: the Padded Message, defined for messages below 2^61 bytes (R167). -/
def pad (msg : List Byte) : Except HostRefusal (List Byte) :=
  if msg.length < 2 ^ 61 then
    .ok (msg ++ [0x80] ++ List.replicate (padZeros msg.length) 0 ++ be64 (8 * msg.length))
  else .error .messageTooLong

/-- R169: block `n` is the 64 bytes `padded[64n .. 64n+63]`, as a value on the port (R52). The rule defines it
under the postcondition of `pad`, a length that is a multiple of 64. DESIGN CHOICE (log 21): of any other list the
bytes after the last whole block are dropped. -/
def segment (padded : List Byte) : List Block :=
  (List.range (padded.length / 64)).map fun n => blockOfBytes ((padded.drop (64 * n)).take 64)

/-- R175: `hash_blocks(IV, segment(pad(msg)))`. -/
def sha256 (msg : List Byte) : Except HostRefusal (Vector Word 8) :=
  (pad msg).map fun padded => hashBlocks IV (segment padded)

/-- The four bytes of a word, most significant first (R173). -/
def wordBytes (w : Word) : List Byte :=
  (List.range 4).map fun j => BitVec.ofNat 8 (w.toNat / 2 ^ (8 * (3 - j)))

/-- R173: the 32 bytes of the digest, `H[0]` first. -/
def serialize (H : Vector Word 8) : List Byte := H.toList.flatMap wordBytes

/-- R174: the digits `0123456789abcdef`. -/
def hexDigits : List Char :=
  ['0', '1', '2', '3', '4', '5', '6', '7', '8', '9', 'a', 'b', 'c', 'd', 'e', 'f']

/-- R174: a byte as two hexadecimal digits, high nibble first. -/
def hexByte (b : Byte) : List Char :=
  [hexDigits.getD (b.toNat / 16) '0', hexDigits.getD (b.toNat % 16) '0']

/-- R174: the text of a list of bytes. -/
def hex (bytes : List Byte) : String := String.ofList (bytes.flatMap hexByte)

end Sys2Proof.Machine
end

