-- ==== Sys2Proof/Machine/Trace.lean ====
section
/-! DEFINITION. The trace notation and the pseudo-operations (30_encoding.md R81, R82), and the host's
sequence for one message (44_host_protocol.md R171). -/

namespace Sys2Proof.Machine

/-- The value of a hexadecimal digit. DESIGN CHOICE (log 21): 0 for any other character, which no well-formed line
has. -/
def hexValue (c : Char) : Nat :=
  if '0' ≤ c ∧ c ≤ '9' then c.toNat - '0'.toNat
  else if 'a' ≤ c ∧ c ≤ 'f' then c.toNat - 'a'.toNat + 10
  else if 'A' ≤ c ∧ c ≤ 'F' then c.toNat - 'A'.toNat + 10
  else 0

/-- R81: the 512-bit number of a `NEXT` line, most significant digit first. -/
def blockOfDigits (digits : List Char) : Block :=
  BitVec.ofNat 512 ((ungroup digits).foldl (fun acc c => 16 * acc + hexValue c) 0)

/-- Read a trace line; a line that is not well formed is not read. -/
def readLine (l : TraceLine) : Option HostCommand :=
  if l.wellFormed then
    match l with
    | .reset => some .reset
    | .nop => some .nop
    | .init => some .init
    | .next digits => some (.next (blockOfDigits digits))
    | .rsvd => some .rsvd
  else none

/-- R81: whether the pins show what a line says; the ports the line leaves `any` are free. -/
def drives : HostCommand → Pins → Bool
  | .reset, p => p.reset
  | .nop, p => !p.reset && p.cmd == 0b00
  | .init, p => !p.reset && p.cmd == 0b01
  | .next blk, p => !p.reset && p.cmd == 0b10 && p.block == blk
  | .rsvd, p => !p.reset && p.cmd == 0b11

/-- R81: pins that show a line, the `any` ports written as 0. -/
def pinsOf : HostCommand → Pins
  | .reset => ⟨true, 0b00, 0⟩
  | .nop => ⟨false, 0b00, 0⟩
  | .init => ⟨false, 0b01, 0⟩
  | .next blk => ⟨false, 0b10, blk⟩
  | .rsvd => ⟨false, 0b11, 0⟩

/-- R81: the host input word `in[2:0] = reset ‖ cmd`. -/
def inputWord (p : Pins) : BitVec 3 := BitVec.ofBool p.reset ++ p.cmd

/-- How many steps the core still takes before it is ready, if it is not reset: 0 when idle, and
113 right after a NEXT (R82 `WAIT`, 43_state_update.md R158). -/
def State.stepsToReady (s : State) : Nat :=
  match s.phase with
  | .idle => 0
  | .expand => (64 - s.t.toNat) + 64 + 1
  | .compress => (64 - s.t.toNat) + 1
  | .update => 1

/-- R82: `HASHBLOCK`, the 114 lines of one block transaction. -/
def hashblockLines (blk : Block) : List HostCommand := .next blk :: List.replicate 113 .nop

/-- R82: `DIGEST`, the lines for the blocks of one message. -/
def digestLines (blocks : List Block) : List HostCommand := .init :: blocks.flatMap hashblockLines

/-- R82: the expansion of a pseudo-operation begun in state `s`; `DIGEST` of a message that the host
refuses (R167) has none. -/
def expandPseudo (s : State) : Pseudo → Except HostRefusal (List HostCommand)
  | .nops n => .ok (List.replicate n .nop)
  | .wait => .ok (List.replicate s.stepsToReady .nop)
  | .hashblock blk => .ok (hashblockLines blk)
  | .digest msg => (pad msg).map fun padded => digestLines (segment padded)

end Sys2Proof.Machine
end

