-- ==== Sys2Proof/Safety.lean ====
section
/-! DEFINITION. The terms the claims use: runs and the pins along them, what the host drives, the
invariants of 10_state.md R40, the marks of R41, and what correct use means (70_reset_and_hazards.md
R216). None of it is part of the machine. -/

namespace Sys2Proof.Machine

/-! ### Runs -/

/-- `n` steps of the core. -/
def run (n : Nat) (s : State) : Host.Outcome State Fault Refusal := Host.Core.run Sys2Proof.core n s

/-- What the host drives at the `k`-th step from now, the next step being number 0 (R60). -/
def State.pinsAt (s : State) : Nat → Pins
  | 0 => s.pins
  | k + 1 => s.advancePins.pinsAt k

/-- What a host may drive at one step, as far as a claim fixes it. -/
inductive LinePattern where
  /-- INIT. -/
  | init
  /-- NEXT with a given block. -/
  | next (block : Block)
  /-- NOP or the reserved code (43_state_update.md R159). -/
  | idle
  /-- Any command and any block, without `reset` (R158). -/
  | noReset
  deriving DecidableEq, Repr

/-- Whether pins fit a pattern. -/
def LinePattern.accepts : LinePattern → Pins → Bool
  | .init, p => !p.reset && p.cmd == 0b01
  | .next blk, p => !p.reset && p.cmd == 0b10 && p.block == blk
  | .idle, p => !p.reset && (p.cmd == 0b00 || p.cmd == 0b11)
  | .noReset, p => !p.reset

/-- From the next step on, the host drives what the patterns say, one a step. -/
def Follows (s : State) (patterns : List LinePattern) : Prop :=
  ∀ (k : Nat) (h : k < patterns.length), patterns[k].accepts (s.pinsAt k) = true

/-- One block transaction, begun after some idle steps: the block is driven in the NEXT step, and in
the 113 steps after it anything but `reset` (R158). -/
def blockPatterns (item : Nat × Block) : List LinePattern :=
  List.replicate item.1 .idle ++ .next item.2 :: List.replicate 113 .noReset

/-- INIT once, then the blocks in order, then some idle steps (R159, 44_host_protocol.md R171). -/
def messagePatterns (items : List (Nat × Block)) (after : Nat) : List LinePattern :=
  .init :: items.flatMap blockPatterns ++ List.replicate after .idle

/-! ### The marks of R41 -/

/-- Which data words are written (R41), and which words of `W` were written during the current block
transaction (R40). A ghost beside the machine: the core has no such bits (R42). -/
structure Marks where
  H : Vector Bool 8
  v : Vector Bool 8
  W : Vector Bool 64
  current : Vector Bool 64
  deriving DecidableEq, Repr

/-- After a RESET every data word is unspecified (R39). -/
def Marks.unspecified : Marks where
  H := Vector.ofFn fun _ => false
  v := Vector.ofFn fun _ => false
  W := Vector.ofFn fun _ => false
  current := Vector.ofFn fun _ => false

/-- Every one of eight words is written. -/
def allWritten (x : Vector Bool 8) : Bool := x[0] && x[1] && x[2] && x[3] && x[4] && x[5] && x[6] && x[7]

/-- R117: the four words WEXP reads at index `t` are written; below 16 there is no `W[t-16]`. -/
def scheduleWritten (W : Vector Bool 64) (t : Nat) (h64 : t < 64) : Bool :=
  if _h : 16 ≤ t then W[t - 16] && W[t - 15] && W[t - 7] && W[t - 2] else false

/-- How an operation moves the marks: a word becomes written when it is assigned a value computed
only from written words, constants and sampled ports, and unspecified when it is assigned one
computed from an unspecified word (R41). For ROUND this is R136 corner case 9 (log 18). -/
def Marks.after (m : Marks) (s : State) : Instr → Marks
  | .reset _ _ => .unspecified
  | .nop => m
  | .init => { m with H := Vector.ofFn fun _ => true }
  | .next _ =>
    { m with
      v := m.H
      W := Vector.ofFn fun i => if i.val < 16 then true else m.W[i.val]
      current := Vector.ofFn fun i => decide (i.val < 16) }
  | .rsvd => m
  | .wexp _ =>
    { m with
      W := m.W.set s.t.toNat (scheduleWritten m.W s.t.toNat s.t.isLt) s.t.isLt
      current := m.current.set s.t.toNat true s.t.isLt }
  | .round _ =>
    let all := allWritten m.v && m.W[s.t.toNat]'s.t.isLt
    { m with v := #v[all, m.v[0], m.v[1], m.v[2], all, m.v[4], m.v[5], m.v[6]] }
  | .hacc _ => { m with H := Vector.ofFn fun k => m.H[k.val] && m.v[k.val] }

/-- Two states that a spec reader cannot tell apart beyond unspecified words: the same control
state and inputs, and the same value in every word that is marked written. -/
structure Marks.Agree (m : Marks) (s₁ s₂ : State) : Prop where
  phase : s₁.phase = s₂.phase
  t : s₁.t = s₂.t
  dvalid : s₁.dvalid = s₂.dvalid
  pins : s₁.pins = s₂.pins
  upcoming : s₁.upcoming = s₂.upcoming
  H : ∀ (k : Nat) (h : k < 8), m.H[k] = true → s₁.H[k] = s₂.H[k]
  v : ∀ (k : Nat) (h : k < 8), m.v[k] = true → s₁.v[k] = s₂.v[k]
  W : ∀ (i : Nat) (h : i < 64), m.W[i] = true → s₁.W[i] = s₂.W[i]

/-- Every data word the operation reads is written (R216). -/
def Marks.ReadsWritten (m : Marks) (s : State) : Instr → Prop
  | .reset _ _ => True
  | .nop => True
  | .init => True
  | .next _ => allWritten m.H = true
  | .rsvd => True
  | .wexp _ => scheduleWritten m.W s.t.toNat s.t.isLt = true
  | .round _ => allWritten m.v = true ∧ m.W[s.t.toNat]'s.t.isLt = true
  | .hacc _ => allWritten m.H = true ∧ allWritten m.v = true

/-- What holds from an INIT on until the next RESET (R216): H is written, and so is everything the
transaction in progress will read before it writes it. -/
structure Marks.DataReady (m : Marks) (s : State) : Prop where
  H : allWritten m.H = true
  v : s.phase ≠ .idle → allWritten m.v = true
  expand : s.phase = .expand → ∀ (i : Nat) (h : i < 64), i < s.t.toNat → m.W[i] = true
  compress : s.phase = .compress → ∀ (i : Nat) (h : i < 64), m.W[i] = true

/-! ### The invariants of R40 -/

/-- The invariants of R40, over a state and the marks beside it. -/
structure ReachableInv (s : State) (m : Marks) : Prop where
  idle : s.phase = .idle → s.t = 0
  expand : s.phase = .expand →
    16 ≤ s.t.toNat ∧ s.t.toNat ≤ 63 ∧
      ∀ (i : Nat) (h : i < 64), i < s.t.toNat → m.current[i] = true
  compress : s.phase = .compress →
    s.t.toNat ≤ 63 ∧ ∀ (i : Nat) (h : i < 64), m.current[i] = true
  update : s.phase = .update → s.t = 0
  busy : s.phase ≠ .idle → s.dvalid = false
  valid : s.dvalid = true → s.phase = .idle

/-- The control part of R40, without the marks. -/
structure ControlInv (s : State) : Prop where
  idle : s.phase = .idle → s.t = 0
  expand : s.phase = .expand → 16 ≤ s.t.toNat
  update : s.phase = .update → s.t = 0
  busy : s.phase ≠ .idle → s.dvalid = false

/-- How far the transaction on block `blk` has come: what `W` and `v` hold in each phase (R118, R119,
R135, R138). -/
def OnBlock (s : State) (blk : Block) : Prop :=
  match s.phase with
  | .idle => True
  | .expand => s.v = s.H ∧ ∀ (i : Nat) (h : i < 64), i < s.t.toNat → s.W[i] = (expand blk)[i]
  | .compress => s.W = expand blk ∧ s.v = roundsUpTo s.H (expand blk) s.t.toNat
  | .update => s.W = expand blk ∧ s.v = rounds s.H (expand blk)

/-- Control state and data of a core that has been reset: a busy core is somewhere inside the
transaction on some block. -/
structure DataInv (s : State) : Prop where
  control : ControlInv s
  onBlock : ∃ blk, OnBlock s blk

end Sys2Proof.Machine
end

