-- ==== Sys2Proof/Certificates/Slice0/Obligations.lean ====
section
/-! DEFINITION. The statements about the model, for the provers. Each docstring names the rule of the spec
it formalises, or says that it is derived and from what. -/

open Sys2Proof Sys2Proof.Machine

/-! ### Selecting and decoding (30_encoding.md) -/

/-- R71: each operation is selected exactly by its row of the table, mask and match written out; the eight
rows are exclusive, so each selector has one operation. -/
def Obligations.SelectorMatchesOneRow : Prop :=
  ∀ (sel : BitVec 5) (blk : Block),
    ((decode sel blk).mnemonic = "RESET" ↔ sel &&& 0b10000 = 0b10000) ∧
    ((decode sel blk).mnemonic = "NOP" ↔ sel &&& 0b11111 = 0b00000) ∧
    ((decode sel blk).mnemonic = "INIT" ↔ sel &&& 0b11111 = 0b00001) ∧
    ((decode sel blk).mnemonic = "NEXT" ↔ sel &&& 0b11111 = 0b00010) ∧
    ((decode sel blk).mnemonic = "RSVD" ↔ sel &&& 0b11111 = 0b00011) ∧
    ((decode sel blk).mnemonic = "WEXP" ↔ sel &&& 0b11100 = 0b00100) ∧
    ((decode sel blk).mnemonic = "ROUND" ↔ sel &&& 0b11100 = 0b01000) ∧
    ((decode sel blk).mnemonic = "HACC" ↔ sel &&& 0b11100 = 0b01100) ∧
    (opcodeTable.filter fun r => r.selects sel).map (·.mnemonic) = [(decode sel blk).mnemonic]

/-- The decoder's chain of tests, and the step function `perform(decode(reset, phase, cmd), state, block)`.
Derived from R80; that the pins then move on is the model's choice (its own input fields, log 3). -/
def Obligations.StepPerformsDecodedOperation : Prop :=
  (∀ (reset : Bool) (phase cmd : BitVec 2) (blk : Block),
    decode (selector reset phase cmd) blk =
      if reset = true then .reset phase cmd
      else if phase = 0b01 then .wexp cmd
      else if phase = 0b10 then .round cmd
      else if phase = 0b11 then .hacc cmd
      else if cmd = 0b00 then .nop
      else if cmd = 0b01 then .init
      else if cmd = 0b10 then .next blk
      else .rsvd) ∧
  ∀ s t : State,
    exec (decode (selector s.pins.reset s.phase.code s.pins.cmd) s.pins.block) s = .next t →
      step s = .next { t with pins := t.upcoming.headD t.pins, upcoming := t.upcoming.tail }

/-- A step runs the decoded instruction: if the selector and the block port hold the encoding of a
well-formed instruction `i`, the step is `exec i`. Derived from R80; that the pins then move on is the
model's choice (its own input fields, log 3). -/
def Obligations.StepRunsEncodedInstruction : Prop :=
  ∀ (s : State) (i : Instr), i.wellFormed = true → s.selector = encodeSelector i →
    (∀ blk, i = .next blk → s.pins.block = blk) →
      s.fetch = i ∧
      step s = (match exec i s with
        | .next t => .next { t with pins := t.upcoming.headD t.pins, upcoming := t.upcoming.tail }
        | .fault r => .fault r
        | .refused r => .refused r)

/-- A table word placed by `withFetchWord` is what the next step runs; only the pins and `phase` change for
it (log 5). Derived from R71. -/
def Obligations.PlacedTableWordIsFetched : Prop :=
  ∀ (s : State) (nbits w : Nat) (i : Instr), decodeTableWord nbits w = some i →
    (s.withFetchWord nbits w).fetch = i ∧
    ∃ (p : Phase) (pins : Pins), s.withFetchWord nbits w = { s with phase := p, pins := pins }

/-- Decode and encode agree: the bytes of every instruction decode to it, with every operand at every value,
and nothing after them is consumed. Derived from R71 and R74; the byte form is the model's (log 6). -/
def Obligations.DecodeOfEncode : Prop :=
  ∀ (i : Instr) (rest : List Byte), i.wellFormed = true → decodeBytes (encode i ++ rest) = .ok (i, rest)

/-- Bytes that decode are the encoding of what they decode to. Derived from R71 and R74. That no bit of a
selector is dropped is the model's choice: R71 does not look at the don't-care bits, and the model keeps them as
operands (log 7); the byte form is the model's too (log 6). -/
def Obligations.EncodeOfDecode : Prop :=
  ∀ (bytes : List Byte) (i : Instr) (rest : List Byte),
    decodeBytes bytes = .ok (i, rest) → bytes = encode i ++ rest

/-- Which byte strings are no instruction, each with its name. Derived from R71 and R54; the byte form is
the model's (log 6). -/
def Obligations.DecodeRefusals : Prop :=
  ∀ (bytes : List Byte) (e : DecodeError), decodeBytes bytes = .error e ↔
    (bytes = [] ∧ e = .noSelector) ∨
    (∃ b rest, bytes = b :: rest ∧ 32 ≤ b.toNat ∧ e = .notASelector) ∨
    (∃ rest, bytes = 0b00010#8 :: rest ∧ rest.length < 64 ∧ e = .shortBlock)

/-- Words written out from the rows of R71 decode to their operations; a word of NEXT with a block word
written out after R52 decodes with that block. A sanity statement. The layout of the words as bytes, and the 64
block bytes after the selector byte of NEXT, are the model's choice (the byte form of log 6). -/
def Obligations.SpecWordsDecode : Prop :=
  decodeTableWord 8 0b11011 = some (.reset 0b10 0b11) ∧ decodeTableWord 8 0b00000 = some .nop ∧
  decodeTableWord 8 0b00001 = some .init ∧ decodeTableWord 8 0b00011 = some .rsvd ∧
  decodeTableWord 8 0b00110 = some (.wexp 0b10) ∧ decodeTableWord 8 0b01001 = some (.round 0b01) ∧
  decodeTableWord 8 0b01111 = some (.hacc 0b11) ∧
  (decodeBytes (0b00010 :: 0x61 :: 0x62 :: 0x63 :: 0x80 :: List.replicate 59 0 ++ [0x18])).toOption.map
    (·.1) = some (.next (0x61626380 <<< 480 ||| 0x18))

/-! ### The eight operations: effect, frame and completion -/

/-- R90: RESET from any state at all; the data words afterwards are unspecified, so nothing is said of them.
Nothing else of the machine exists; the inputs keep their values. -/
def Obligations.ResetEffect : Prop :=
  ∀ (s : State) (phase cmd : BitVec 2), ∃ (H v : Vector Word 8) (W : Vector Word 64) (n : Nat),
    exec (.reset phase cmd) s =
      .next { s with phase := .idle, t := 0, dvalid := false, H := H, v := v, W := W, freeNext := n }

/-- RESET forgets: what it leaves depends on nothing of the state before it but the model's own input fields
and free-word counter, and its data words are the next 80 free words (the model's choice, log 1). Derived
from R90 corner case 1 and R211. -/
def Obligations.ResetForgets : Prop :=
  ∀ (s s' : State) (a b c d : BitVec 2),
    (s.pins = s'.pins → s.upcoming = s'.upcoming → s.freeNext = s'.freeNext →
      exec (.reset a b) s = exec (.reset c d) s') ∧
    ∃ t, exec (.reset a b) s = .next t ∧ t.freeNext = s.freeNext + 80 ∧
      (∀ (k : Nat) (h : k < 8), t.H[k] = Config.freeWord (s.freeNext + k) ∧
        t.v[k] = Config.freeWord (s.freeNext + 8 + k)) ∧
      ∀ (i : Nat) (h : i < 64), t.W[i] = Config.freeWord (s.freeNext + 16 + i)

/-- R91 and R94: NOP and RSVD leave every register as it is. -/
def Obligations.NopAndRsvdChangeNothing : Prop :=
  ∀ s : State, exec .nop s = .next s ∧ exec .rsvd s = .next s

/-- R92: INIT loads H from the table IV and clears `dvalid`; nothing else changes. -/
def Obligations.InitEffect : Prop :=
  ∀ s : State, exec .init s = .next { s with H := IV, dvalid := false }

/-- R93: NEXT loads `W[0..15]` from the slices of `block`, copies H into v and starts EXPAND at 16; `H` and
`W[16..63]` are not touched. -/
def Obligations.NextEffect : Prop :=
  ∀ (s : State) (blk : Block), ∃ W : Vector Word 64,
    exec (.next blk) s =
      .next { s with W := W, v := s.H, t := 16, phase := .expand, dvalid := false } ∧
    (∀ (i : Nat) (h : i < 16), W[i] = blk.extractLsb' (480 - 32 * i) 32) ∧
    ∀ (i : Nat) (h : i < 64), 16 ≤ i → W[i] = s.W[i]

/-- R117: WEXP writes `W[t]` and the control state; every other word of W, `H`, `v` and `dvalid` are not
touched. -/
def Obligations.WexpEffect : Prop :=
  ∀ (s : State) (cmd : BitVec 2) (n : Nat) (h16 : 16 ≤ n) (h64 : n < 64), s.t.toNat = n →
    exec (.wexp cmd) s = .next { s with
      W := s.W.set n (s.W[n - 16] + s0 s.W[n - 15] + s.W[n - 7] + s1 s.W[n - 2]) h64
      t := if n < 63 then s.t + 1 else 0
      phase := if n < 63 then s.phase else .compress }

/-- Outside the invariant of R40 (`t` below 16 there is no `W[t-16]`) WEXP still completes: the word written
is the next free word, all else is as in R117. The model's choice (log 8); derived from R40, R117 and U5. -/
def Obligations.WexpBelowSixteenRuns : Prop :=
  ∀ (s : State) (cmd : BitVec 2) (n : Nat) (h : n < 16), s.t.toNat = n →
    exec (.wexp cmd) s = .next { s with
      W := s.W.set n (Config.freeWord s.freeNext)
      t := s.t + 1
      freeNext := s.freeNext + 1 }

/-- R136: ROUND replaces all eight working variables at once and moves the control state; `H`, `W` and
`dvalid` are not touched. -/
def Obligations.RoundEffect : Prop :=
  ∀ (s : State) (cmd : BitVec 2) (n : Nat) (h64 : n < 64), s.t.toNat = n →
    let a := s.v[0]; let b := s.v[1]; let c := s.v[2]; let d := s.v[3]
    let e := s.v[4]; let f := s.v[5]; let g := s.v[6]; let h := s.v[7]
    let temp1 := h + (rotr e 6 ^^^ rotr e 11 ^^^ rotr e 25) + ((e &&& f) ^^^ (~~~e &&& g)) + K[n] + s.W[n]
    let temp2 := (rotr a 2 ^^^ rotr a 13 ^^^ rotr a 22) + ((a &&& b) ^^^ (a &&& c) ^^^ (b &&& c))
    exec (.round cmd) s = .next { s with
      v := #v[temp1 + temp2, a, b, c, d + temp1, e, f, g]
      t := if n < 63 then s.t + 1 else 0
      phase := if n < 63 then s.phase else .update }

/-- R152 and R154: HACC adds v into H in eight lanes, each modulo 2^32 on its own, sets `dvalid` and returns
to IDLE; `t`, `v` and `W` are not touched. -/
def Obligations.HaccEffect : Prop :=
  ∀ (s : State) (cmd : BitVec 2), ∃ H : Vector Word 8,
    exec (.hacc cmd) s = .next { s with H := H, dvalid := true, phase := .idle } ∧
    ∀ (k : Nat) (h : k < 8), H[k].toNat = (s.H[k].toNat + s.v[k].toNat) % 2 ^ 32

/-! ### Words, tables and ports -/

/-- R74: the words the block is loaded as are its bytes, most significant first, byte `j` being
`block[511-8j : 504-8j]`. -/
def Obligations.BlockWordsAreBigEndian : Prop :=
  ∀ (s : State) (blk : Block) (t : State), exec (.next blk) s = .next t →
    ∀ (i : Nat) (h : i < 16),
      t.W[i] = blk.extractLsb' (480 - 32 * i) 32 ∧
      t.W[i] = blk.extractLsb' (504 - 8 * (4 * i)) 8 ++ blk.extractLsb' (504 - 8 * (4 * i + 1)) 8 ++
        blk.extractLsb' (504 - 8 * (4 * i + 2)) 8 ++ blk.extractLsb' (504 - 8 * (4 * i + 3)) 8

/-- R110 and R111: the rotation by its two formulas and bit by bit, and the logical shift. -/
def Obligations.RotationAndShift : Prop :=
  ∀ (x : Word) (n : Nat), 0 < n → n < 32 →
    rotr x n = shr x n ||| shl32 x (32 - n) ∧
    (∀ i, i < 32 → (rotr x n).getLsbD i = x.getLsbD ((i + n) % 32)) ∧
    (rotr x n).toNat = x.toNat / 2 ^ n + (x.toNat % 2 ^ n) * 2 ^ (32 - n) ∧
    (shr x n).toNat = x.toNat / 2 ^ n

/-- The four sigma functions of R112, R113, R130 and R131, that they are linear over exclusive or, and their values
at 0 and at all ones. The last two are inferences the spec marks as its own: "Linear over exclusive OR: `s0(x ^ y) =
s0(x) ^ s0(y)` and `s0(0) = 0` [derived: from rules R110 and R111]" (R112; the same of s1 in R113), and for S0 and S1
linearity, 0 at 0 and all ones at all ones "[derived: from `41_msg_sched.md` rule R110]" (R130, R131). -/
def Obligations.SigmaFunctions : Prop :=
  ∀ x y : Word,
    s0 x = rotr x 7 ^^^ rotr x 18 ^^^ shr x 3 ∧ s1 x = rotr x 17 ^^^ rotr x 19 ^^^ shr x 10 ∧
    S0 x = rotr x 2 ^^^ rotr x 13 ^^^ rotr x 22 ∧ S1 x = rotr x 6 ^^^ rotr x 11 ^^^ rotr x 25 ∧
    s0 (x ^^^ y) = s0 x ^^^ s0 y ∧ s1 (x ^^^ y) = s1 x ^^^ s1 y ∧
    S0 (x ^^^ y) = S0 x ^^^ S0 y ∧ S1 (x ^^^ y) = S1 x ^^^ S1 y ∧
    s0 0 = 0 ∧ s1 0 = 0 ∧ S0 0 = 0 ∧ S1 0 = 0 ∧ S0 0xFFFFFFFF = 0xFFFFFFFF ∧ S1 0xFFFFFFFF = 0xFFFFFFFF

/-- R132 and R133, bit by bit. -/
def Obligations.ChooseAndMajorityBits : Prop :=
  ∀ (x y z : Word) (i : Nat), i < 32 →
    (ch x y z).getLsbD i = (if x.getLsbD i then y.getLsbD i else z.getLsbD i) ∧
    (maj x y z).getLsbD i =
      ((x.getLsbD i && y.getLsbD i) || (x.getLsbD i && z.getLsbD i) || (y.getLsbD i && z.getLsbD i)) ∧
    ch x y z = (x &&& y) ^^^ (~~~x &&& z) ∧ maj x y z = (x &&& y) ^^^ (x &&& z) ^^^ (y &&& z)

/-- The formula of R34: `K[i]` is `floor(cbrt(p) * 2^32) mod 2^32` for the prime `p` with `i` primes below
it. Derived: the spec marks table and formula as general knowledge (log 14). -/
def Obligations.RoundConstantsFromPrimes : Prop :=
  ∀ (i : Nat) (h : i < 64), ∃ p r : Nat, p.Prime ∧ Nat.count Nat.Prime p = i ∧
    r ^ 3 ≤ p * 2 ^ 96 ∧ p * 2 ^ 96 < (r + 1) ^ 3 ∧ K[i].toNat = r % 2 ^ 32

/-- The formula of R35: `IV[k]` is `floor(sqrt(p) * 2^32) mod 2^32` for the prime `p` with `k` primes below
it. Derived: the spec marks table and formula as general knowledge (log 14). -/
def Obligations.InitialValueFromPrimes : Prop :=
  ∀ (k : Nat) (h : k < 8), ∃ p r : Nat, p.Prime ∧ Nat.count Nat.Prime p = k ∧
    r ^ 2 ≤ p * 2 ^ 64 ∧ p * 2 ^ 64 < (r + 1) ^ 2 ∧ IV[k].toNat = r % 2 ^ 32

/-- The three output ports. Derived from R24, R25 and R26. -/
def Obligations.OutputPorts : Prop :=
  ∀ s : State,
    (s.ready = true ↔ s.phase = .idle) ∧ s.digestValid = s.dvalid ∧
    s.outputs = ⟨s.ready, s.digestValid, s.digest⟩ ∧
    ∀ (k : Nat) (h : k < 8), s.digest.extractLsb' (224 - 32 * k) 32 = s.H[k]

/-! ### Inputs, totality, and who writes what -/

/-- R190: the step function is total, and so is every operation on its own. -/
def Obligations.StepIsTotal : Prop :=
  (∀ s : State, ∃ t, step s = .next t) ∧ ∀ (i : Instr) (s : State), ∃ t, exec i s = .next t

/-- R195: `reset` wins over a busy phase, a busy phase over `cmd`; both strobes at once do nothing. -/
def Obligations.SimultaneousEvents : Prop :=
  ∀ s : State,
    (s.pins.reset = true → s.fetch = .reset s.phase.code s.pins.cmd) ∧
    (s.pins.reset = false → s.phase = .expand → s.fetch = .wexp s.pins.cmd) ∧
    (s.pins.reset = false → s.phase = .compress → s.fetch = .round s.pins.cmd) ∧
    (s.pins.reset = false → s.phase = .update → s.fetch = .hacc s.pins.cmd) ∧
    (s.pins.reset = false → s.phase = .idle →
      (s.pins.cmd = 0b00 → s.fetch = .nop) ∧ (s.pins.cmd = 0b01 → s.fetch = .init) ∧
      (s.pins.cmd = 0b10 → s.fetch = .next s.pins.block) ∧
      (s.pins.cmd = 0b11 → s.fetch = .rsvd ∧ exec s.fetch s = .next s))

/-- A port has no effect in a step where it is not sampled. Derived from R23. Two states that differ in the
pins only, agree in `reset`, agree in `cmd` if the core is idle without reset, and agree in `block` if the
operation is NEXT, have the same next state but for the pins the host goes on holding. -/
def Obligations.UnsampledPortsDoNotMatter : Prop :=
  ∀ (s : State) (p : Pins), p.reset = s.pins.reset →
    (s.pins.reset = false → s.phase = .idle → p.cmd = s.pins.cmd) →
    (s.pins.reset = false → s.phase = .idle → s.pins.cmd = 0b10 → p.block = s.pins.block) →
      ∃ t t', step s = .next t ∧ step { s with pins := p } = .next t' ∧ { t' with pins := t.pins } = t

/-- Which operations write which registers: a register that a step changes was changed by one of the
operations its rule names. Derived from the access lists of R27 to R32. -/
def Obligations.OnlyNamedOperationsWrite : Prop :=
  ∀ s t : State, step s = .next t →
    (t.H ≠ s.H → s.fetch.mnemonic ∈ ["RESET", "INIT", "HACC"]) ∧
    (t.v ≠ s.v → s.fetch.mnemonic ∈ ["RESET", "NEXT", "ROUND"]) ∧
    (t.W ≠ s.W → s.fetch.mnemonic ∈ ["RESET", "NEXT", "WEXP"]) ∧
    (t.dvalid ≠ s.dvalid → s.fetch.mnemonic ∈ ["RESET", "INIT", "NEXT", "HACC"]) ∧
    (t.t ≠ s.t → s.fetch.mnemonic ∈ ["RESET", "NEXT", "WEXP", "ROUND"]) ∧
    (t.phase ≠ s.phase → s.fetch.mnemonic ∈ ["RESET", "NEXT", "WEXP", "ROUND", "HACC"])

/-- A step with `reset = 1` in any phase, whatever `cmd` and `block` are, gives an idle core. Derived from
R22, R39 and R211; of the data words nothing is said here. -/
def Obligations.ResetStepFromAnyState : Prop :=
  ∀ s : State, s.pins.reset = true → ∃ t, step s = .next t ∧
    t.phase = .idle ∧ t.t = 0 ∧ t.dvalid = false ∧ t.ready = true ∧ t.digestValid = false

/-! ### Whole phases and the block transaction -/

/-- The recurrence of `expand`, and that NEXT and `j` WEXP steps compute its words. R118 (its second half
the spec derives). -/
def Obligations.ScheduleExpansion : Prop :=
  (∀ (blk : Block) (i : Nat) (h : i < 16), (expand blk)[i] = blk.extractLsb' (480 - 32 * i) 32) ∧
  (∀ (blk : Block) (i : Nat) (h16 : 16 ≤ i) (h64 : i < 64),
    (expand blk)[i] = (expand blk)[i - 16] + s0 (expand blk)[i - 15] + (expand blk)[i - 7] +
      s1 (expand blk)[i - 2]) ∧
  ∀ (s : State) (j : Nat), s.phase = .idle → s.pins.reset = false → s.pins.cmd = 0b10 → j ≤ 48 →
    (∀ k, k ≤ j → (s.pinsAt k).reset = false) →
      ∃ u, run (j + 1) s = .next u ∧
        (∀ (i : Nat) (h : i < 64), i < 16 + j → u.W[i] = (expand s.pins.block)[i]) ∧
        (j = 48 → u.W = expand s.pins.block ∧ u.phase = .compress ∧ u.t = 0)

/-- R137: what `round` is, that ROUND applies it to v with `K[t]` and `W[t]`, and that it is a bijection of
the eight words. -/
def Obligations.RoundIsBijection : Prop :=
  (∀ (a b c d e f g h k w : Word),
    Machine.round #v[a, b, c, d, e, f, g, h] k w =
      #v[(h + S1 e + ch e f g + k + w) + (S0 a + maj a b c), a, b, c, d + (h + S1 e + ch e f g + k + w),
         e, f, g]) ∧
  (∀ (s : State) (cmd : BitVec 2) (n : Nat) (h64 : n < 64), s.t.toNat = n →
    ∃ t, exec (.round cmd) s = .next t ∧ t.v = Machine.round s.v K[n] s.W[n]) ∧
  ∀ k w : Word, Function.Bijective fun x : Vector Word 8 => Machine.round x k w

/-- R138 (its second half the spec derives): `rounds` is the 64-fold application, and `j` ROUND steps
compute `x_j`. -/
def Obligations.CompressionRounds : Prop :=
  (∀ (x : Vector Word 8) (Wv : Vector Word 64),
    roundsUpTo x Wv 0 = x ∧ rounds x Wv = roundsUpTo x Wv 64 ∧
    ∀ (i : Nat) (h : i < 64), roundsUpTo x Wv (i + 1) = Machine.round (roundsUpTo x Wv i) K[i] Wv[i]) ∧
  ∀ (s : State) (j : Nat), s.phase = .compress → s.t = 0 → j ≤ 64 →
    (∀ k, k < j → (s.pinsAt k).reset = false) →
      ∃ u, run j s = .next u ∧ u.v = roundsUpTo s.v s.W j ∧ u.W = s.W ∧ u.H = s.H ∧
        (j = 64 → u.v = rounds s.v s.W ∧ u.phase = .update ∧ u.t = 0)

/-- R158, the block transaction law (the spec derives it): which operation each of the 114 steps is, what
the ports show during it, and what it leaves; whatever `W`, `v`, `t`, `dvalid` were and whatever the host
drives on `cmd` and `block` in steps 1 to 113. -/
def Obligations.BlockTransactionLaw : Prop :=
  ∀ (s : State) (blk : Block), s.phase = .idle → s.pins.reset = false → s.pins.cmd = 0b10 →
    s.pins.block = blk → (∀ k, 1 ≤ k → k ≤ 113 → (s.pinsAt k).reset = false) →
      s.fetch = .next blk ∧
      (∀ j, 1 ≤ j → j ≤ 113 → ∃ u, run j s = .next u ∧ u.outputs = ⟨false, false, s.digest⟩ ∧
        (j ≤ 48 → u.fetch.mnemonic = "WEXP" ∧ u.t.toNat = 15 + j) ∧
        (49 ≤ j → j ≤ 112 → u.fetch.mnemonic = "ROUND" ∧ u.t.toNat = j - 49) ∧
        (j = 113 → u.fetch.mnemonic = "HACC")) ∧
      ∃ t, run 114 s = .next t ∧ t.phase = .idle ∧ t.t = 0 ∧ t.dvalid = true ∧
        t.H = compress s.H blk ∧ t.W = expand blk ∧ t.v = rounds s.H (expand blk) ∧
        t.outputs = ⟨true, true, joinWords (compress s.H blk)⟩

/-- R155: `compress` is `expand`, the 64 rounds from `Hin`, and eight additions. -/
def Obligations.CompressIsItsParts : Prop :=
  ∀ (Hin : Vector Word 8) (blk : Block) (k : Nat) (h : k < 8),
    (compress Hin blk)[k] = Hin[k] + (rounds Hin (expand blk))[k]

/-- R159: after INIT and the transactions of a list of blocks, with any number of NOP or RSVD steps between
and after them, H is `hash_blocks(IV, blocks)`, and `dvalid` is 1 if there was a block. -/
def Obligations.ChainingLaw : Prop :=
  (∀ Hin : Vector Word 8, hashBlocks Hin [] = Hin ∧
    ∀ (b : Block) (bs : List Block), hashBlocks Hin (b :: bs) = hashBlocks (compress Hin b) bs) ∧
  ∀ (s : State) (items : List (Nat × Block)) (after : Nat), s.phase = .idle →
    Follows s (messagePatterns items after) →
      ∃ t, run (messagePatterns items after).length s = .next t ∧ t.phase = .idle ∧
        t.H = hashBlocks IV (items.map Prod.snd) ∧ (items ≠ [] → t.dvalid = true)

/-- R160 (the spec derives it): while the host drives only NOP or RSVD an idle core holds everything, H and
`dvalid` included, for any number of steps. -/
def Obligations.IdleCoreHolds : Prop :=
  ∀ (s : State) (n : Nat), s.phase = .idle → Follows s (List.replicate n .idle) →
    ∃ t, run n s = .next t ∧ { t with pins := s.pins, upcoming := s.upcoming } = s ∧
      t.outputs = s.outputs

/-- R227: without reset a busy core is ready after at most 113 steps, and not before `stepsToReady` steps.
-/
def Obligations.TransactionTerminates : Prop :=
  ∀ s : State, ControlInv s → (∀ k, k < s.stepsToReady → (s.pinsAt k).reset = false) →
    s.stepsToReady ≤ 113 ∧
    (∃ t, run s.stepsToReady s = .next t ∧ t.ready = true) ∧
    ∀ j, j < s.stepsToReady → ∃ t, run j s = .next t ∧ t.ready = false

/-- A NEXT held on the pins is executed again at the end of every transaction, chained on its result; an
INIT held into the step after HACC overwrites the result. Derived from R219. -/
def Obligations.HeldCommandRunsAgain : Prop :=
  (∀ (s : State) (blk : Block) (n : Nat), s.phase = .idle →
    (∀ k, k < 114 * n → s.pinsAt k = ⟨false, 0b10, blk⟩) →
      ∃ t, run (114 * n) s = .next t ∧ t.phase = .idle ∧
        t.H = hashBlocks s.H (List.replicate n blk)) ∧
  ∀ s : State, s.phase = .update → s.pins.reset = false → (s.pinsAt 1).reset = false →
    (s.pinsAt 1).cmd = 0b01 →
      ∃ t, run 2 s = .next t ∧ t.H = IV ∧ t.dvalid = false

/-! ### Invariants -/

/-- Every step keeps the invariants of R40, the marks moving as R41 says. Derived from R40. -/
def Obligations.StepKeepsReachableInv : Prop :=
  ∀ (s t : State) (m : Marks), ReachableInv s m → step s = .next t → ReachableInv t (m.after s s.fetch)

/-- The invariants of R40 hold in the state after reset, and after a RESET step from any state. Derived from
R40. -/
def Obligations.ResetEstablishesReachableInv : Prop :=
  ReachableInv State.reset .unspecified ∧
  ∀ (s t : State) (m : Marks), s.pins.reset = true → step s = .next t →
    ReachableInv t (m.after s s.fetch)

/-- A core that has been reset is idle or somewhere inside the transaction on some block, with exactly the
words `expand` and `rounds` give in W and v: every step keeps that. Derived from R118, R119, R135 and R138.
-/
def Obligations.StepKeepsDataInv : Prop :=
  ∀ s t : State, DataInv s → step s = .next t → DataInv t

/-- The data invariant holds in the state after reset. Derived from R39. -/
def Obligations.ResetHasDataInv : Prop := DataInv State.reset

/-- Unspecified words do not leak into written ones: if two states agree on the control state, the inputs
and every written word, then after any operation they agree on the words the marks then call written.
Derived from R41 (for ROUND the marks follow R136 corner case 9, log 18). -/
def Obligations.MarksAreSound : Prop :=
  ∀ (i : Instr) (m : Marks) (s₁ s₂ t₁ t₂ : State), m.Agree s₁ s₂ →
    exec i s₁ = .next t₁ → exec i s₂ = .next t₂ → (m.after s₁ i).Agree t₁ t₂

/-- From an INIT on until the next RESET every operation reads written words only, and H stays written.
Derived from R216. -/
def Obligations.CorrectUseReadsWrittenWords : Prop :=
  (∀ (m : Marks) (s t : State), s.phase = .idle → s.fetch = .init → step s = .next t →
    (m.after s s.fetch).DataReady t) ∧
  ∀ (m : Marks) (s t : State), ControlInv s → m.DataReady s → s.pins.reset = false →
    step s = .next t → m.ReadsWritten s s.fetch ∧ (m.after s s.fetch).DataReady t

/-! ### The host's side (44_host_protocol.md, 30_encoding.md) -/

/-- The padded message of R166. Its last clause, the length as 64 times the number of blocks, is an inference the
spec marks as its own: "The padded length is `L + 1 + z + 8 = 64 * N` with the number of blocks `N = floor((L + 8) /
64) + 1` [derived: from the algorithm]". -/
def Obligations.PaddingShape : Prop :=
  ∀ msg : List Byte, msg.length < 2 ^ 61 → ∃ (z : Nat) (len : List Byte),
    pad msg = .ok (msg ++ [0x80] ++ List.replicate z 0 ++ len) ∧
    (z : ℤ) = (55 - (msg.length : ℤ)) % 64 ∧ z ≤ 63 ∧ (msg.length + 1 + z) % 64 = 56 ∧
    len.length = 8 ∧ bigEndian len = 8 * msg.length ∧
    msg.length + 1 + z + 8 = 64 * ((msg.length + 8) / 64 + 1)

/-- R167: a message of 2^61 bytes or more is refused. -/
def Obligations.LongMessageRefused : Prop :=
  ∀ msg : List Byte, 2 ^ 61 ≤ msg.length →
    pad msg = .error .messageTooLong ∧ sha256 msg = .error .messageTooLong

/-- R169: block `n` is bytes `64n` to `64n+63`, byte `64n` in the most significant byte of the port, and
nothing is left over. -/
def Obligations.SegmentationBytes : Prop :=
  ∀ (padded : List Byte) (N : Nat), padded.length = 64 * N →
    (Machine.segment padded).length = N ∧
    ∀ (n j : Nat), n < N → j < 64 →
      ∃ blk b, (Machine.segment padded)[n]? = some blk ∧ padded[64 * n + j]? = some b ∧
        blk.extractLsb' (504 - 8 * j) 8 = b

/-- R173: the 32 bytes of the digest, by value and on the port. -/
def Obligations.SerializedDigest : Prop :=
  ∀ s : State, (serialize s.H).length = 32 ∧
    ∀ (k j : Nat) (h : k < 8), j < 4 → ∃ b, (serialize s.H)[4 * k + j]? = some b ∧
      b.toNat = s.H[k].toNat / 2 ^ (8 * (3 - j)) % 256 ∧
      b = s.digest.extractLsb' (248 - 8 * (4 * k + j)) 8

/-- R174: 64 characters, each word as its eight digits in lower case, most significant first. -/
def Obligations.HexText : Prop :=
  ∀ H : Vector Word 8, (hex (serialize H)).length = 64 ∧
    ∀ (k j : Nat) (h : k < 8), j < 8 → ∃ (d : Nat) (hd : d < 16),
      d = H[k].toNat / 16 ^ (7 - j) % 16 ∧
      (hex (serialize H)).toList[8 * k + j]? =
        some (['0', '1', '2', '3', '4', '5', '6', '7', '8', '9', 'a', 'b', 'c', 'd', 'e', 'f'][d])

/-- The digest of a message: a host that follows R171 (INIT once, the blocks of `pad(msg)` in order, idle
steps wherever it likes, anything but `reset` while the core is busy) reads with `ready` and `digest_valid`
both 1 a port whose bytes are `serialize(sha256(msg))`. Derived from R171, R172, R175. -/
def Obligations.DigestOfMessage : Prop :=
  ∀ (s : State) (msg padded : List Byte) (items : List (Nat × Block)) (after : Nat), msg.length < 2 ^ 61 →
    s.phase = .idle → pad msg = .ok padded → items.map Prod.snd = Machine.segment padded →
    Follows s (messagePatterns items after) →
      ∃ (t : State) (D : Vector Word 8), run (messagePatterns items after).length s = .next t ∧
        sha256 msg = .ok D ∧ t.outputs = ⟨true, true, joinWords D⟩ ∧ serialize t.H = serialize D

/-- The expansions of the pseudo-operations, `DIGEST` being INIT and then, block by block, NEXT and 113 NOP:
1 + 114 N lines. Whatever pins show those lines (the ports a line leaves open are free, `drives`; log 19), driving
them from an idle core leaves the digest. `WAIT` after an accepted NEXT is 113 lines. Derived from R82. -/
def Obligations.PseudoOperations : Prop :=
  (∀ (s : State) (n : Nat), expandPseudo s (.nops n) = .ok (List.replicate n .nop)) ∧
  (∀ s t : State, s.phase = .idle → s.fetch = .next s.pins.block → step s = .next t →
    expandPseudo s .wait = .ok [] ∧ expandPseudo t .wait = .ok (List.replicate 113 .nop)) ∧
  (∀ (s : State) (blk : Block), expandPseudo s (.hashblock blk) = .ok (.next blk :: List.replicate 113 .nop)) ∧
  (∀ (s : State) (msg padded : List Byte), pad msg = .ok padded →
    expandPseudo s (.digest msg) =
      .ok (.init :: (Machine.segment padded).flatMap fun b => .next b :: List.replicate 113 .nop)) ∧
  ∀ (s : State) (msg : List Byte) (lines : List HostCommand) (ps : List Pins), s.phase = .idle →
    expandPseudo s (.digest msg) = .ok lines → List.Forall₂ (fun c p => drives c p = true) lines ps →
      lines.length = 1 + 114 * ((msg.length + 8) / 64 + 1) ∧
      ∃ (t : State) (D : Vector Word 8), run lines.length (s.drive ps) = .next t ∧
        sha256 msg = .ok D ∧ t.outputs = ⟨true, true, joinWords D⟩

/-- The host input word of each trace line, and which operation a line driven at an idle core selects; a
line driven at a busy core selects the operation of the phase, unless it is RESET. Derived from R81. -/
def Obligations.TraceLinesSelect : Prop :=
  ∀ (s : State) (c : HostCommand), drives c s.pins = true →
    (c = .reset → inputWord s.pins &&& 0b100 = 0b100 ∧ s.fetch.mnemonic = "RESET") ∧
    (c = .nop → inputWord s.pins = 0b000 ∧ (s.phase = .idle → s.fetch = .nop)) ∧
    (c = .init → inputWord s.pins = 0b001 ∧ (s.phase = .idle → s.fetch = .init)) ∧
    (∀ blk, c = .next blk → inputWord s.pins = 0b010 ∧ (s.phase = .idle → s.fetch = .next blk)) ∧
    (c = .rsvd → inputWord s.pins = 0b011 ∧ (s.phase = .idle → s.fetch = .rsvd)) ∧
    (c ≠ .reset →
      (s.phase = .expand → s.fetch = .wexp s.pins.cmd) ∧ (s.phase = .compress → s.fetch = .round s.pins.cmd) ∧
      (s.phase = .update → s.fetch = .hacc s.pins.cmd))

/-- The digits of a `NEXT` line. A line is well formed exactly when 128 hexadecimal digits are left once
spaces and underscores are removed; another line is not read. The first two digits are byte 0 of the block, and
so on, each digit character with its value. Derived from R81; that digits of either case are read is the model's
choice (log 19). -/
def Obligations.NextLineDigits : Prop :=
  (∀ (n : Nat) (h : n < 16),
    hexValue (['0', '1', '2', '3', '4', '5', '6', '7', '8', '9', 'a', 'b', 'c', 'd', 'e', 'f'][n]) = n ∧
    hexValue (['0', '1', '2', '3', '4', '5', '6', '7', '8', '9', 'A', 'B', 'C', 'D', 'E', 'F'][n]) = n) ∧
  ∀ digits ds : List Char, ds = digits.filter (fun c => c != ' ' && c != '_') →
    ((TraceLine.next digits).wellFormed = true ↔ ds.length = 128 ∧
      ∀ c ∈ ds, c ∈ ['0', '1', '2', '3', '4', '5', '6', '7', '8', '9', 'a', 'b', 'c', 'd', 'e', 'f',
        'A', 'B', 'C', 'D', 'E', 'F']) ∧
    ((TraceLine.next digits).wellFormed = false → readLine (.next digits) = none) ∧
    ((TraceLine.next digits).wellFormed = true → ∃ blk, readLine (.next digits) = some (.next blk) ∧
      ∀ j, j < 64 → ∃ hi lo, ds[2 * j]? = some hi ∧ ds[2 * j + 1]? = some lo ∧
        (blk.extractLsb' (504 - 8 * j) 8).toNat = 16 * hexValue hi + hexValue lo)
end

