-- ==== Sys2Proof/Laws/Decode.lean ====
section
/-! SUPPORT. The decoder on a selector put together from its three fields, and the parts of the byte
forms. -/

namespace Sys2Proof

@[simp] theorem selPhase_selector (reset : Bool) (phase cmd : BitVec 2) :
    selPhase (selector reset phase cmd) = phase := by
  revert reset phase cmd; decide

@[simp] theorem selCmd_selector (reset : Bool) (phase cmd : BitVec 2) :
    selCmd (selector reset phase cmd) = cmd := by
  revert reset phase cmd; decide

@[simp] theorem selector_bit4 (reset : Bool) (phase cmd : BitVec 2) :
    (selector reset phase cmd)[4] = reset := by
  revert reset phase cmd; decide

/-- A selector is put together from its own three fields. -/
theorem selector_fields (sel : BitVec 5) :
    selector (sel.getLsbD 4) (selPhase sel) (selCmd sel) = sel := by
  revert sel; decide

@[simp] theorem length_bytesOfBlock (blk : Block) : (bytesOfBlock blk).length = 64 := by
  simp [bytesOfBlock]

@[simp] theorem length_lowBytes (n w : Nat) : (lowBytes n w).length = n := by
  induction n generalizing w with
  | zero => rfl
  | succ n ih => simp [lowBytes, ih]

end Sys2Proof
end

