-- ==== Sys2Proof/Laws/Bytes.lean ====
section
/-! SUPPORT. Big-endian numbers, the bytes of a block, and lists put together from equal pieces. -/

namespace Sys2Proof

/-- One more byte at the end. -/
theorem bigEndianFrom_snoc (bytes : List Byte) (b : Byte) (acc : Nat) :
    bigEndianFrom acc (bytes ++ [b]) = 256 * bigEndianFrom acc bytes + b.toNat := by
  induction bytes generalizing acc with
  | nil => rfl
  | cons x xs ih => simp [bigEndianFrom, ih]

/-- What was already read stands above the bytes still to read. -/
theorem bigEndianFrom_eq (bytes : List Byte) (acc : Nat) :
    bigEndianFrom acc bytes = acc * 256 ^ bytes.length + bigEndian bytes := by
  induction bytes generalizing acc with
  | nil => simp [bigEndianFrom, bigEndian]
  | cons b bs ih =>
    simp only [bigEndian, bigEndianFrom, List.length_cons] at ih ⊢
    rw [ih (256 * acc + b.toNat), ih (256 * 0 + b.toNat)]
    ring

/-- Bytes that are the digits of a number to base 256 read as that number. -/
theorem bigEndian_digits (f : Nat → Byte) (x n : Nat)
    (hf : ∀ j < n, (f j).toNat = x / 2 ^ (8 * (n - 1 - j)) % 256) (hx : x < 256 ^ n) :
    bigEndian ((List.range n).map f) = x := by
  induction n generalizing x with
  | zero =>
    obtain rfl : x = 0 := by simpa using hx
    rfl
  | succ n ih =>
    have hi := ih (x / 256) (fun j hj => by
      rw [hf j (by omega), show n + 1 - 1 - j = (n - 1 - j) + 1 by omega, Nat.mul_add, Nat.pow_add,
        Nat.mul_comm (2 ^ _), ← Nat.div_div_eq_div_mul]) (by rw [Nat.pow_succ] at hx; omega)
    rw [List.range_succ, List.map_append, List.map_singleton]
    unfold bigEndian at hi ⊢
    rw [bigEndianFrom_snoc, hi, hf n (by omega)]
    simp
    omega

/-- Byte `j` of a list is a digit of its number. -/
theorem bigEndian_digit (bytes : List Byte) (j : Nat) (h : j < bytes.length) :
    bigEndian bytes / 256 ^ (bytes.length - 1 - j) % 256 = bytes[j].toNat := by
  induction bytes generalizing j with
  | nil => simp at h
  | cons b bs ih =>
    have hlt := bigEndianFrom_lt bs 0 1 (by omega)
    have hp : 0 < 256 ^ bs.length := by positivity
    have hcons : bigEndian (b :: bs) = b.toNat * 256 ^ bs.length + bigEndian bs := by
      rw [bigEndian, bigEndianFrom, bigEndianFrom_eq]
      ring
    rw [hcons]
    cases j with
    | zero =>
      rw [show (b :: bs).length - 1 - 0 = bs.length by simp, Nat.mul_comm, Nat.mul_add_div hp,
        Nat.div_eq_of_lt (by unfold bigEndian; omega)]
      have := b.isLt
      simp
      omega
    | succ j =>
      have hj : j < bs.length := by simpa using h
      rw [show (b :: bs).length - 1 - (j + 1) = bs.length - 1 - j by simp; omega]
      simp only [List.getElem_cons_succ]
      have e : 256 ^ bs.length = 256 ^ (bs.length - 1 - j) * (256 * 256 ^ j) := by
        rw [← pow_succ', ← pow_add]
        congr 1
        omega
      rw [← ih j hj, e, show b.toNat * (256 ^ (bs.length - 1 - j) * (256 * 256 ^ j)) =
        256 ^ (bs.length - 1 - j) * (256 * (b.toNat * 256 ^ j)) by ring,
        Nat.mul_add_div (by positivity), Nat.mul_add_mod]

theorem blockByte_toNat (blk : Block) (j : Nat) :
    (blockByte blk j).toNat = blk.toNat / 2 ^ (504 - 8 * j) % 256 := by
  simp [blockByte, BitVec.extractLsb'_toNat, Nat.shiftRight_eq_div_pow]

/-- The block of 64 bytes has those bytes. -/
theorem blockByte_blockOfBytes (bytes : List Byte) (hl : bytes.length = 64) (j : Nat) (hj : j < 64) :
    blockByte (blockOfBytes bytes) j = bytes[j] := by
  apply BitVec.eq_of_toNat_eq
  rw [blockByte_toNat, blockOfBytes, BitVec.toNat_ofNatLT, List.take_of_length_le (by omega),
    ← bigEndian_digit bytes j (by omega), hl, show (256 : Nat) ^ (64 - 1 - j) = 2 ^ (504 - 8 * j) by
      rw [show (256 : Nat) = 2 ^ 8 from rfl, ← Nat.pow_mul]; congr 1; omega]

theorem blockOfBytes_bytesOfBlock (blk : Block) : blockOfBytes (bytesOfBlock blk) = blk := by
  apply BitVec.eq_of_toNat_eq
  rw [blockOfBytes, BitVec.toNat_ofNatLT, List.take_of_length_le (by simp)]
  refine bigEndian_digits _ _ _ (fun j hj => ?_) ?_
  · rw [blockByte_toNat, show 8 * (64 - 1 - j) = 504 - 8 * j by omega]
  · have := blk.isLt
    rwa [show (256 : Nat) ^ 64 = 2 ^ 512 by rw [show (256 : Nat) = 2 ^ 8 from rfl, ← Nat.pow_mul]]

theorem bytesOfBlock_blockOfBytes (bytes : List Byte) (hl : bytes.length = 64) :
    bytesOfBlock (blockOfBytes bytes) = bytes := by
  apply List.ext_getElem
  · simp [hl]
  · intro j h1 h2
    simp only [bytesOfBlock, List.getElem_map, List.getElem_range]
    exact blockByte_blockOfBytes bytes hl j (by omega)

/-- The length of a list put together from pieces of one length. -/
theorem length_flatMap_of_length {α β : Type} (l : List α) (f : α → List β) (m : Nat)
    (hf : ∀ a, (f a).length = m) : (l.flatMap f).length = l.length * m := by
  simp [List.length_flatMap, hf]

/-- Where an element of a list put together from pieces of one length comes from. -/
theorem getElem?_flatMap_of_length {α β : Type} (l : List α) (f : α → List β) (m : Nat)
    (hf : ∀ a, (f a).length = m) (k j : Nat) (hk : k < l.length) (hj : j < m) :
    (l.flatMap f)[m * k + j]? = (f l[k])[j]? := by
  induction l generalizing k with
  | nil => simp at hk
  | cons a l ih =>
    rw [List.flatMap_cons]
    cases k with
    | zero =>
      rw [List.getElem?_append_left (by rw [hf]; omega)]
      simp
    | succ k =>
      rw [List.getElem?_append_right (by rw [hf]; nlinarith), hf,
        show m * (k + 1) + j - m = m * k + j by rw [Nat.mul_succ]; omega]
      simp only [List.getElem_cons_succ]
      exact ih k (by simpa using hk)

end Sys2Proof
end

