-- ==== Sys2Proof/Laws/State.lean ====
section
/-! SUPPORT. One lemma per field per register write, so that no proof unfolds a record update. -/

namespace Sys2Proof.Machine

variable (s : State)

@[simp] theorem State.setControl_phase (p : Phase) (x : BitVec 6) : (s.setControl p x).phase = p := rfl
@[simp] theorem State.setControl_t (p : Phase) (x : BitVec 6) : (s.setControl p x).t = x := rfl
@[simp] theorem State.setControl_dvalid (p : Phase) (x : BitVec 6) : (s.setControl p x).dvalid = s.dvalid := rfl
@[simp] theorem State.setControl_H (p : Phase) (x : BitVec 6) : (s.setControl p x).H = s.H := rfl
@[simp] theorem State.setControl_v (p : Phase) (x : BitVec 6) : (s.setControl p x).v = s.v := rfl
@[simp] theorem State.setControl_W (p : Phase) (x : BitVec 6) : (s.setControl p x).W = s.W := rfl
@[simp] theorem State.setControl_pins (p : Phase) (x : BitVec 6) : (s.setControl p x).pins = s.pins := rfl
@[simp] theorem State.setControl_upcoming (p : Phase) (x : BitVec 6) : (s.setControl p x).upcoming = s.upcoming := rfl
@[simp] theorem State.setControl_freeNext (p : Phase) (x : BitVec 6) : (s.setControl p x).freeNext = s.freeNext := rfl

@[simp] theorem State.setDvalid_phase (b : Bool) : (s.setDvalid b).phase = s.phase := rfl
@[simp] theorem State.setDvalid_t (b : Bool) : (s.setDvalid b).t = s.t := rfl
@[simp] theorem State.setDvalid_dvalid (b : Bool) : (s.setDvalid b).dvalid = b := rfl
@[simp] theorem State.setDvalid_H (b : Bool) : (s.setDvalid b).H = s.H := rfl
@[simp] theorem State.setDvalid_v (b : Bool) : (s.setDvalid b).v = s.v := rfl
@[simp] theorem State.setDvalid_W (b : Bool) : (s.setDvalid b).W = s.W := rfl
@[simp] theorem State.setDvalid_pins (b : Bool) : (s.setDvalid b).pins = s.pins := rfl
@[simp] theorem State.setDvalid_upcoming (b : Bool) : (s.setDvalid b).upcoming = s.upcoming := rfl
@[simp] theorem State.setDvalid_freeNext (b : Bool) : (s.setDvalid b).freeNext = s.freeNext := rfl

@[simp] theorem State.setH_phase (H : Vector Word 8) : (s.setH H).phase = s.phase := rfl
@[simp] theorem State.setH_t (H : Vector Word 8) : (s.setH H).t = s.t := rfl
@[simp] theorem State.setH_dvalid (H : Vector Word 8) : (s.setH H).dvalid = s.dvalid := rfl
@[simp] theorem State.setH_H (H : Vector Word 8) : (s.setH H).H = H := rfl
@[simp] theorem State.setH_v (H : Vector Word 8) : (s.setH H).v = s.v := rfl
@[simp] theorem State.setH_W (H : Vector Word 8) : (s.setH H).W = s.W := rfl
@[simp] theorem State.setH_pins (H : Vector Word 8) : (s.setH H).pins = s.pins := rfl
@[simp] theorem State.setH_upcoming (H : Vector Word 8) : (s.setH H).upcoming = s.upcoming := rfl
@[simp] theorem State.setH_freeNext (H : Vector Word 8) : (s.setH H).freeNext = s.freeNext := rfl

@[simp] theorem State.setV_phase (v : Vector Word 8) : (s.setV v).phase = s.phase := rfl
@[simp] theorem State.setV_t (v : Vector Word 8) : (s.setV v).t = s.t := rfl
@[simp] theorem State.setV_dvalid (v : Vector Word 8) : (s.setV v).dvalid = s.dvalid := rfl
@[simp] theorem State.setV_H (v : Vector Word 8) : (s.setV v).H = s.H := rfl
@[simp] theorem State.setV_v (v : Vector Word 8) : (s.setV v).v = v := rfl
@[simp] theorem State.setV_W (v : Vector Word 8) : (s.setV v).W = s.W := rfl
@[simp] theorem State.setV_pins (v : Vector Word 8) : (s.setV v).pins = s.pins := rfl
@[simp] theorem State.setV_upcoming (v : Vector Word 8) : (s.setV v).upcoming = s.upcoming := rfl
@[simp] theorem State.setV_freeNext (v : Vector Word 8) : (s.setV v).freeNext = s.freeNext := rfl

@[simp] theorem State.setW_phase (W : Vector Word 64) : (s.setW W).phase = s.phase := rfl
@[simp] theorem State.setW_t (W : Vector Word 64) : (s.setW W).t = s.t := rfl
@[simp] theorem State.setW_dvalid (W : Vector Word 64) : (s.setW W).dvalid = s.dvalid := rfl
@[simp] theorem State.setW_H (W : Vector Word 64) : (s.setW W).H = s.H := rfl
@[simp] theorem State.setW_v (W : Vector Word 64) : (s.setW W).v = s.v := rfl
@[simp] theorem State.setW_W (W : Vector Word 64) : (s.setW W).W = W := rfl
@[simp] theorem State.setW_pins (W : Vector Word 64) : (s.setW W).pins = s.pins := rfl
@[simp] theorem State.setW_upcoming (W : Vector Word 64) : (s.setW W).upcoming = s.upcoming := rfl
@[simp] theorem State.setW_freeNext (W : Vector Word 64) : (s.setW W).freeNext = s.freeNext := rfl

@[simp] theorem State.setFree_phase (n : Nat) : (s.setFree n).phase = s.phase := rfl
@[simp] theorem State.setFree_t (n : Nat) : (s.setFree n).t = s.t := rfl
@[simp] theorem State.setFree_dvalid (n : Nat) : (s.setFree n).dvalid = s.dvalid := rfl
@[simp] theorem State.setFree_H (n : Nat) : (s.setFree n).H = s.H := rfl
@[simp] theorem State.setFree_v (n : Nat) : (s.setFree n).v = s.v := rfl
@[simp] theorem State.setFree_W (n : Nat) : (s.setFree n).W = s.W := rfl
@[simp] theorem State.setFree_pins (n : Nat) : (s.setFree n).pins = s.pins := rfl
@[simp] theorem State.setFree_upcoming (n : Nat) : (s.setFree n).upcoming = s.upcoming := rfl
@[simp] theorem State.setFree_freeNext (n : Nat) : (s.setFree n).freeNext = n := rfl

@[simp] theorem State.setPins_phase (p : Pins) (l : List Pins) : (s.setPins p l).phase = s.phase := rfl
@[simp] theorem State.setPins_t (p : Pins) (l : List Pins) : (s.setPins p l).t = s.t := rfl
@[simp] theorem State.setPins_dvalid (p : Pins) (l : List Pins) : (s.setPins p l).dvalid = s.dvalid := rfl
@[simp] theorem State.setPins_H (p : Pins) (l : List Pins) : (s.setPins p l).H = s.H := rfl
@[simp] theorem State.setPins_v (p : Pins) (l : List Pins) : (s.setPins p l).v = s.v := rfl
@[simp] theorem State.setPins_W (p : Pins) (l : List Pins) : (s.setPins p l).W = s.W := rfl
@[simp] theorem State.setPins_pins (p : Pins) (l : List Pins) : (s.setPins p l).pins = p := rfl
@[simp] theorem State.setPins_upcoming (p : Pins) (l : List Pins) : (s.setPins p l).upcoming = l := rfl
@[simp] theorem State.setPins_freeNext (p : Pins) (l : List Pins) : (s.setPins p l).freeNext = s.freeNext := rfl

end Sys2Proof.Machine
end

