-- ==== Sys2Proof/Laws/Ops.lean ====
section
/-! SUPPORT. What each shared operation of Machine/Ops.lean does, said once. -/

namespace Sys2Proof.Machine

variable (s : State)

@[simp] theorem phaseOfCode_code (p : Phase) : phaseOfCode p.code = p := by cases p <;> rfl

@[simp] theorem code_phaseOfCode (c : BitVec 2) : (phaseOfCode c).code = c := by
  revert c; decide

@[simp] theorem freeWords_getElem (start n k : Nat) (h : k < n) :
    (freeWords start n)[k] = Config.freeWord (start + k) := by
  simp [freeWords]

/-! ### `advance` -/

theorem advance_last (next : Phase) (h : s.t = 63) : s.advance next = s.setControl next 0 := by
  simp [State.advance, h]

theorem advance_more (next : Phase) (h : s.t ≠ 63) :
    s.advance next = s.setControl s.phase (s.t + 1) := by
  simp only [State.advance, if_neg h]

/-- `advance` writes `phase` and `t` and nothing else. -/
theorem advance_eq (next : Phase) :
    s.advance next = s.setControl (if s.t = 63 then next else s.phase) (if s.t = 63 then 0 else s.t + 1) := by
  unfold State.advance
  split <;> simp_all

theorem advance_phase (next : Phase) :
    (s.advance next).phase = if s.t = 63#6 then next else s.phase := by
  rw [advance_eq]
  rfl

theorem advance_t (next : Phase) : (s.advance next).t = if s.t = 63#6 then 0#6 else s.t + 1#6 := by
  rw [advance_eq]
  rfl

@[simp] theorem advance_dvalid (next : Phase) : (s.advance next).dvalid = s.dvalid := by simp [advance_eq]
@[simp] theorem advance_H (next : Phase) : (s.advance next).H = s.H := by simp [advance_eq]
@[simp] theorem advance_v (next : Phase) : (s.advance next).v = s.v := by simp [advance_eq]
@[simp] theorem advance_W (next : Phase) : (s.advance next).W = s.W := by simp [advance_eq]
@[simp] theorem advance_pins (next : Phase) : (s.advance next).pins = s.pins := by simp [advance_eq]
@[simp] theorem advance_upcoming (next : Phase) : (s.advance next).upcoming = s.upcoming := by
  simp [advance_eq]
@[simp] theorem advance_freeNext (next : Phase) : (s.advance next).freeNext = s.freeNext := by
  simp [advance_eq]

/-- The index 63, by its number. -/
theorem eq_last_iff {t : BitVec 6} : t = 63#6 ↔ t.toNat = 63 :=
  ⟨fun h => by rw [h]; rfl, fun h => BitVec.eq_of_toNat_eq h⟩

/-- Away from the last index `t + 1` does not wrap (R28). -/
theorem toNat_succ_of_ne_last {t : BitVec 6} (h : t ≠ 63#6) : (t + 1#6).toNat = t.toNat + 1 := by
  have hne : t.toNat ≠ 63 := fun e => h (BitVec.eq_of_toNat_eq e)
  have := t.isLt
  rw [BitVec.toNat_add]
  simp
  omega

/-! ### `forgetData` -/

@[simp] theorem forgetData_phase : s.forgetData.phase = s.phase := rfl
@[simp] theorem forgetData_t : s.forgetData.t = s.t := rfl
@[simp] theorem forgetData_dvalid : s.forgetData.dvalid = s.dvalid := rfl
@[simp] theorem forgetData_pins : s.forgetData.pins = s.pins := rfl
@[simp] theorem forgetData_upcoming : s.forgetData.upcoming = s.upcoming := rfl
@[simp] theorem forgetData_H : s.forgetData.H = freeWords s.freeNext 8 := rfl
@[simp] theorem forgetData_v : s.forgetData.v = freeWords (s.freeNext + 8) 8 := rfl
@[simp] theorem forgetData_W : s.forgetData.W = freeWords (s.freeNext + 16) 64 := rfl
@[simp] theorem forgetData_freeNext : s.forgetData.freeNext = s.freeNext + 80 := rfl

/-! ### `advancePins`, `drive` -/

/-- `advancePins` writes the model's two input fields and nothing else. -/
theorem advancePins_eq : s.advancePins = s.setPins (s.upcoming.headD s.pins) s.upcoming.tail := by
  unfold State.advancePins
  cases h : s.upcoming with
  | nil =>
    cases s
    cases h
    rfl
  | cons p ps => simp

@[simp] theorem advancePins_phase : s.advancePins.phase = s.phase := by simp [advancePins_eq]
@[simp] theorem advancePins_t : s.advancePins.t = s.t := by simp [advancePins_eq]
@[simp] theorem advancePins_dvalid : s.advancePins.dvalid = s.dvalid := by simp [advancePins_eq]
@[simp] theorem advancePins_H : s.advancePins.H = s.H := by simp [advancePins_eq]
@[simp] theorem advancePins_v : s.advancePins.v = s.v := by simp [advancePins_eq]
@[simp] theorem advancePins_W : s.advancePins.W = s.W := by simp [advancePins_eq]
@[simp] theorem advancePins_freeNext : s.advancePins.freeNext = s.freeNext := by simp [advancePins_eq]

/-! ### `fetch` (R80), by what the pins and the phase are -/

theorem fetch_of_reset (h : s.pins.reset = true) :
    s.fetch = .reset s.phase.code s.pins.cmd := by
  simp [State.fetch, State.selector, decode, h]

theorem fetch_of_expand (hr : s.pins.reset = false) (hp : s.phase = .expand) :
    s.fetch = .wexp s.pins.cmd := by
  simp [State.fetch, State.selector, decode, hr, hp, Phase.code]

theorem fetch_of_compress (hr : s.pins.reset = false) (hp : s.phase = .compress) :
    s.fetch = .round s.pins.cmd := by
  simp [State.fetch, State.selector, decode, hr, hp, Phase.code]

theorem fetch_of_update (hr : s.pins.reset = false) (hp : s.phase = .update) :
    s.fetch = .hacc s.pins.cmd := by
  simp [State.fetch, State.selector, decode, hr, hp, Phase.code]

/-- In IDLE the command code selects the operation (R72). -/
theorem fetch_of_idle (hr : s.pins.reset = false) (hp : s.phase = .idle) :
    s.fetch = if s.pins.cmd = 0b00 then .nop else if s.pins.cmd = 0b01 then .init
      else if s.pins.cmd = 0b10 then .next s.pins.block else .rsvd := by
  simp [State.fetch, State.selector, decode, hr, hp, Phase.code]

end Sys2Proof.Machine
end

