-- ==== Sys2Proof/Laws/Exec.lean ====
section
/-! SUPPORT. What each meaning answers, as one equation each, and what a step does with it. -/

namespace Sys2Proof.Machine

variable (s : State)

@[simp] theorem wload_getElem (blk : Block) (W : Vector Word 64) (i : Nat) (h : i < 64) :
    (wload blk W)[i] = if i < 16 then blockWord blk i else W[i] := by
  simp [wload]

@[simp] theorem addLanes_getElem (x y : Vector Word 8) (k : Nat) (h : k < 8) :
    (addLanes x y)[k] = x[k] + y[k] := by
  simp [addLanes]

/-- One more derived word of the schedule (R118). -/
theorem expandUpTo_succ (blk : Block) (j : Nat) (h : 16 + j < 64) :
    expandUpTo blk (j + 1) =
      (expandUpTo blk j).set (16 + j) (scheduleWord (expandUpTo blk j) (16 + j) (by omega) h) h := by
  simp only [expandUpTo, dif_pos h]

/-- The word WEXP derives depends on the words below it only. -/
theorem scheduleWord_congr (W W' : Vector Word 64) (t : Nat) (h16 : 16 ≤ t) (h64 : t < 64)
    (h : ∀ (i : Nat) (hi : i < 64), i < t → W[i] = W'[i]) :
    scheduleWord W t h16 h64 = scheduleWord W' t h16 h64 := by
  unfold scheduleWord
  rw [h (t - 16) (by omega) (by omega), h (t - 15) (by omega) (by omega), h (t - 7) (by omega) (by omega),
    h (t - 2) (by omega) (by omega)]

/-- One more round (R138). -/
theorem roundsUpTo_succ (x : Vector Word 8) (Wv : Vector Word 64) (i : Nat) (h : i < 64) :
    roundsUpTo x Wv (i + 1) = round (roundsUpTo x Wv i) K[i] Wv[i] := by
  simp only [roundsUpTo, dif_pos h]

/-- WEXP where the spec defines it (R40: `t` is in 16..63). -/
theorem execWexp_of_le (h : 16 ≤ s.t.toNat) :
    execWexp s = .next ((s.setW (s.W.set s.t.toNat (scheduleWord s.W s.t.toNat h s.t.isLt) s.t.isLt)).advance
      .compress) := by
  simp [execWexp, h]

/-- WEXP in a state outside R40 (log 8). -/
theorem execWexp_of_lt (h : s.t.toNat < 16) :
    execWexp s = .next (((s.setW (s.W.set s.t.toNat (Config.freeWord s.freeNext) s.t.isLt)).setFree
      (s.freeNext + 1)).advance .compress) := by
  simp [execWexp, Nat.not_le.mpr h]

/-- R137: a ROUND step is `v <- round(v, K[t], W[t])`. -/
theorem execRound_eq : execRound s = .next ((s.setV (round s.v s.kt s.wt)).advance .update) := rfl

/-- A step whose operation answers a next state takes it and moves the pins on. -/
theorem step_of_exec {i : Instr} {t : State} (hf : s.fetch = i) (he : exec i s = .next t) :
    step s = .next t.advancePins := by
  simp [step, hf, he]

/-- A step that answers a next state ran the fetched operation to a next state. -/
theorem exec_of_step {t : State} (h : step s = .next t) :
    ∃ u, exec s.fetch s = .next u ∧ t = u.advancePins := by
  unfold step at h
  split at h
  · next u hu => exact ⟨u, hu, by simpa using h.symm⟩
  · exact absurd h (by simp)
  · exact absurd h (by simp)

/-- No operation touches the model's input fields: only the step does. -/
theorem exec_keeps_inputs {i : Instr} {t : State} (h : exec i s = .next t) :
    t.pins = s.pins ∧ t.upcoming = s.upcoming := by
  cases i <;> simp only [exec, execReset, execNop, execInit, execNext, execRsvd, execWexp, execRound,
    execHacc] at h
  case wexp => split at h <;> (cases h; simp)
  all_goals (cases h; simp)

/-! ### A step, by what the pins and the phase are -/

theorem step_reset (hr : s.pins.reset = true) :
    step s = .next ((s.forgetData.setControl .idle 0).setDvalid false).advancePins :=
  step_of_exec s (fetch_of_reset s hr) rfl

theorem step_idle (hr : s.pins.reset = false) (hp : s.phase = .idle) (hc : s.pins.cmd = 0 ∨ s.pins.cmd = 3) :
    step s = .next s.advancePins := by
  have hf := fetch_of_idle s hr hp
  rcases hc with hc | hc <;> rw [hc] at hf <;> exact step_of_exec s hf rfl

theorem step_init (hr : s.pins.reset = false) (hp : s.phase = .idle) (hc : s.pins.cmd = 1) :
    step s = .next ((s.setH IV).setDvalid false).advancePins := by
  have hf := fetch_of_idle s hr hp
  rw [hc] at hf
  exact step_of_exec s hf rfl

theorem step_next (hr : s.pins.reset = false) (hp : s.phase = .idle) (hc : s.pins.cmd = 2) :
    step s = .next ((((s.setW (wload s.pins.block s.W)).setV s.H).setControl .expand 16).setDvalid
      false).advancePins := by
  refine step_of_exec s (i := .next s.pins.block) ?_ rfl
  rw [fetch_of_idle s hr hp, hc]
  rfl

theorem step_expand (hr : s.pins.reset = false) (hp : s.phase = .expand) (h16 : 16 ≤ s.t.toNat) :
    step s = .next ((s.setW (s.W.set s.t.toNat (scheduleWord s.W s.t.toNat h16 s.t.isLt) s.t.isLt)).advance
      .compress).advancePins :=
  step_of_exec s (fetch_of_expand s hr hp) (execWexp_of_le s h16)

theorem step_compress (hr : s.pins.reset = false) (hp : s.phase = .compress) :
    step s = .next ((s.setV (round s.v s.kt s.wt)).advance .update).advancePins :=
  step_of_exec s (fetch_of_compress s hr hp) (execRound_eq s)

theorem step_update (hr : s.pins.reset = false) (hp : s.phase = .update) :
    step s = .next (((s.setH (addLanes s.H s.v)).setDvalid true).setControl .idle s.t).advancePins :=
  step_of_exec s (fetch_of_update s hr hp) rfl

theorem cmd_cases : ∀ c : BitVec 2, c = 0 ∨ c = 1 ∨ c = 2 ∨ c = 3 := by decide

/-- Everything a step can do: what was fetched, under which condition, and the state it gives. -/
theorem step_cases {t : State} (h : step s = .next t) :
    (s.pins.reset = true ∧ s.fetch = .reset s.phase.code s.pins.cmd ∧
      t = ((s.forgetData.setControl .idle 0).setDvalid false).advancePins) ∨
    (s.pins.reset = false ∧ s.phase = .idle ∧
      (s.pins.cmd = 0 ∧ s.fetch = .nop ∨ s.pins.cmd = 3 ∧ s.fetch = .rsvd) ∧ t = s.advancePins) ∨
    (s.pins.reset = false ∧ s.phase = .idle ∧ s.pins.cmd = 1 ∧ s.fetch = .init ∧
      t = ((s.setH IV).setDvalid false).advancePins) ∨
    (s.pins.reset = false ∧ s.phase = .idle ∧ s.pins.cmd = 2 ∧ s.fetch = .next s.pins.block ∧
      t = ((((s.setW (wload s.pins.block s.W)).setV s.H).setControl .expand 16).setDvalid
        false).advancePins) ∨
    (s.pins.reset = false ∧ s.phase = .expand ∧ s.fetch = .wexp s.pins.cmd ∧
      ∃ u, execWexp s = .next u ∧ t = u.advancePins) ∨
    (s.pins.reset = false ∧ s.phase = .compress ∧ s.fetch = .round s.pins.cmd ∧
      t = ((s.setV (round s.v s.kt s.wt)).advance .update).advancePins) ∨
    (s.pins.reset = false ∧ s.phase = .update ∧ s.fetch = .hacc s.pins.cmd ∧
      t = (((s.setH (addLanes s.H s.v)).setDvalid true).setControl .idle s.t).advancePins) := by
  have done : ∀ {u : State}, step s = .next u → t = u := fun hu => by
    rw [hu] at h
    exact (Host.Outcome.next.inj h).symm
  by_cases hr : s.pins.reset = true
  · exact .inl ⟨hr, fetch_of_reset s hr, done (step_reset s hr)⟩
  have hr : s.pins.reset = false := by simpa using hr
  refine .inr ?_
  rcases hp : s.phase with _ | _ | _ | _
  · have hf := fetch_of_idle s hr hp
    rcases cmd_cases s.pins.cmd with hc | hc | hc | hc <;> rw [hc] at hf
    · exact .inl ⟨hr, rfl, .inl ⟨hc, hf⟩, done (step_idle s hr hp (.inl hc))⟩
    · exact .inr (.inl ⟨hr, rfl, hc, hf, done (step_init s hr hp hc)⟩)
    · exact .inr (.inr (.inl ⟨hr, rfl, hc, hf, done (step_next s hr hp hc)⟩))
    · exact .inl ⟨hr, rfl, .inr ⟨hc, hf⟩, done (step_idle s hr hp (.inr hc))⟩
  · obtain ⟨u, hu, ht⟩ := exec_of_step s h
    have hf := fetch_of_expand s hr hp
    rw [hf] at hu
    exact .inr (.inr (.inr (.inl ⟨hr, rfl, hf, u, hu, ht⟩)))
  · exact .inr (.inr (.inr (.inr (.inl ⟨hr, rfl, fetch_of_compress s hr hp, done (step_compress s hr hp)⟩))))
  · exact .inr (.inr (.inr (.inr (.inr ⟨hr, rfl, fetch_of_update s hr hp, done (step_update s hr hp)⟩))))

end Sys2Proof.Machine
end

