-- ==== Sys2Proof/Laws/PerInstr.lean ====
section
/-! SUPPORT. Statements made once for every instruction, one lemma per constructor. -/

namespace Sys2Proof.Laws.SelectorRoundTrip

/-- Every instruction is well formed, its selector decodes to it (with its own operand on the block
port), and exactly the opcode-table row of its mnemonic selects that selector. -/
def Statement (i : Instr) : Prop :=
  i.wellFormed = true ∧ decode (encodeSelector i) i.operandBlock = i ∧
    (opcodeTable.filter fun r => r.selects (encodeSelector i)).map (·.mnemonic) = [i.mnemonic]

theorem reset (phase cmd : BitVec 2) : Statement (.reset phase cmd) := by
  unfold Statement; revert phase cmd; decide
theorem nop : Statement .nop := by unfold Statement; decide
theorem init : Statement .init := by unfold Statement; decide
theorem next (block : Block) : Statement (.next block) :=
  ⟨rfl, by simp [decode, encodeSelector, selPhase, selCmd, Instr.operandBlock], by
    show (opcodeTable.filter fun r => r.selects 0b00010).map (·.mnemonic) = ["NEXT"]
    decide⟩
theorem rsvd : Statement .rsvd := by unfold Statement; decide
theorem wexp (cmd : BitVec 2) : Statement (.wexp cmd) := by unfold Statement; revert cmd; decide
theorem round (cmd : BitVec 2) : Statement (.round cmd) := by unfold Statement; revert cmd; decide
theorem hacc (cmd : BitVec 2) : Statement (.hacc cmd) := by unfold Statement; revert cmd; decide

end Sys2Proof.Laws.SelectorRoundTrip
end

