-- ==== Sys2Proof/Laws/Run.lean ====
section
/-! SUPPORT. Runs: one step, splitting a run, and the pins along one. -/

namespace Sys2Proof.Machine

@[simp] theorem run_zero (s : State) : run 0 s = .next s := rfl

/-- The first step of a run. -/
theorem run_succ_of_step {s t : State} (n : Nat) (h : step s = .next t) : run (n + 1) s = run n t := by
  have hc : Sys2Proof.core.step s = .next t := h
  simp only [run, Host.Core.run, hc]
  rfl

/-- A run is a run followed by a run. -/
theorem run_add {s t : State} (m n : Nat) (h : run m s = .next t) : run (m + n) s = run n t := by
  induction m generalizing s with
  | zero =>
    cases h
    rw [Nat.zero_add]
  | succ m ih =>
    cases hs : step s with
    | next u =>
      rw [run_succ_of_step m hs] at h
      rw [Nat.succ_add, run_succ_of_step _ hs]
      exact ih h
    | fault r => exact nomatch r
    | refused r =>
      have hc : Sys2Proof.core.step s = .refused r := hs
      simp [run, Host.Core.run, hc] at h

theorem pinsAt_zero (s : State) : s.pinsAt 0 = s.pins := rfl

theorem pinsAt_succ (s : State) (k : Nat) : s.pinsAt (k + 1) = s.advancePins.pinsAt k := rfl

/-- With nothing else to drive, the pins keep their levels (log 3). -/
theorem pinsAt_of_upcoming_nil {s : State} (h : s.upcoming = []) (k : Nat) : s.pinsAt k = s.pins := by
  induction k with
  | zero => rfl
  | succ k ih =>
    have : s.advancePins = s := by simp [State.advancePins, h]
    rw [pinsAt_succ, this, ih]

/-- The pins a state shows, with the list it still has to show, one at each step. -/
theorem pinsAt_of_upcoming {s : State} {p : Pins} {ps rest : List Pins} (hp : s.pins = p)
    (hu : s.upcoming = ps ++ rest) (k : Nat) (hk : k < (p :: ps).length) : s.pinsAt k = (p :: ps)[k] := by
  induction ps generalizing s p k with
  | nil =>
    obtain rfl : k = 0 := by simpa using hk
    exact hp
  | cons q qs ih =>
    cases k with
    | zero => exact hp
    | succ k =>
      rw [pinsAt_succ, List.getElem_cons_succ]
      exact ih (by rw [advancePins_eq]; simp [hu]) (by rw [advancePins_eq]; simp [hu]) k (by simpa using hk)

/-- What `drive` puts on the pins at step `k`. -/
theorem pinsAt_drive (s : State) (ps : List Pins) (k : Nat) (hk : k < ps.length) :
    (s.drive ps).pinsAt k = ps[k] := by
  cases ps with
  | nil => exact absurd hk (Nat.not_lt_zero k)
  | cons p ps => exact pinsAt_of_upcoming rfl rfl k hk

@[simp] theorem drive_phase (s : State) (ps : List Pins) : (s.drive ps).phase = s.phase := by cases ps <;> rfl

/-- The pins along a run depend on the two input fields only. -/
theorem pinsAt_congr {s t : State} (hp : s.pins = t.pins) (hu : s.upcoming = t.upcoming) (k : Nat) :
    s.pinsAt k = t.pinsAt k := by
  induction k generalizing s t with
  | zero => exact hp
  | succ k ih =>
    rw [pinsAt_succ, pinsAt_succ]
    apply ih <;> simp [advancePins_eq, hp, hu]

/-- One step later the pins are those of one step further on. -/
theorem pinsAt_of_step {s t : State} (h : step s = .next t) (k : Nat) : t.pinsAt k = s.pinsAt (k + 1) := by
  obtain ⟨u, hu, rfl⟩ := exec_of_step s h
  obtain ⟨hp, hl⟩ := exec_keeps_inputs s hu
  rw [← pinsAt_succ]
  exact pinsAt_congr hp hl (k + 1)

/-- A run and one step more. -/
theorem run_snoc {s u t : State} {n : Nat} (h : run n s = .next u) (hs : step u = .next t) :
    run (n + 1) s = .next t := by
  rw [run_add n 1 h, run_succ_of_step 0 hs, run_zero]

/-- After a run of `n` steps the pins are those of `n` steps further on. -/
theorem pinsAt_of_run {s u : State} {n : Nat} (h : run n s = .next u) (k : Nat) :
    u.pinsAt k = s.pinsAt (n + k) := by
  induction n generalizing s with
  | zero =>
    cases h
    rw [Nat.zero_add]
  | succ n ih =>
    cases hs : step s with
    | next t =>
      rw [run_succ_of_step n hs] at h
      rw [ih h, pinsAt_of_step hs, show n + k + 1 = n + 1 + k by omega]
    | fault r => exact nomatch r
    | refused r =>
      have hc : Sys2Proof.core.step s = .refused r := hs
      simp [run, Host.Core.run, hc] at h

end Sys2Proof.Machine
end

