-- ==== Sys2Proof/Tests/Slice0.lean ====
section
/-! SUPPORT. Tests. Expected results are from 30_encoding.md R71, 95_test_vectors.md (the number of the
vector stands beside each) and rules worked out by hand. Then one witness per hypothesis of the
statements in Certificates/Slice0/Obligations.lean. -/

namespace Sys2Proof.Tests

open Sys2Proof Sys2Proof.Machine

/-! ### Decoding: words written out bit by bit from R71 (`sel = reset ‖ phase ‖ cmd`) -/

/-- Row `1xxxx` with phase 10 and cmd 11 (vector table 5.1). -/
theorem test_decode_reset : decodeTableWord 8 0b11011 = some (.reset 0b10 0b11) := by decide
/-- Row `00000`. -/
theorem test_decode_nop : decodeTableWord 8 0b00000 = some .nop := by decide
/-- Row `00001`. -/
theorem test_decode_init : decodeTableWord 8 0b00001 = some .init := by decide
/-- Row `00010`, and R52: byte `61` is bits 511:504 of the block. -/
theorem test_decode_next :
    (match decodeBytes (0b00010 :: 0x61 :: 0x62 :: List.replicate 61 0 ++ [0x18]) with
     | .ok (.next blk, []) => (blk >>> 496).toNat == 0x6162 && blk.toNat % 65536 == 0x18
     | _ => false) = true := by decide +kernel
/-- Row `00011`. -/
theorem test_decode_rsvd : decodeTableWord 8 0b00011 = some .rsvd := by decide
/-- Row `001xx` with cmd 10. -/
theorem test_decode_wexp : decodeTableWord 8 0b00110 = some (.wexp 0b10) := by decide
/-- Row `010xx` with cmd 01. -/
theorem test_decode_round : decodeTableWord 8 0b01001 = some (.round 0b01) := by decide
/-- Row `011xx` with cmd 11. -/
theorem test_decode_hacc : decodeTableWord 8 0b01111 = some (.hacc 0b11) := by decide
/-- The encoder gives the same words. -/
theorem test_encode_selectors :
    encodeSelector (.reset 0b10 0b11) = 0b11011 ∧ encodeSelector .nop = 0b00000 ∧
    encodeSelector .init = 0b00001 ∧ encodeSelector (.next 0) = 0b00010 ∧
    encodeSelector .rsvd = 0b00011 ∧ encodeSelector (.wexp 0b10) = 0b00110 ∧
    encodeSelector (.round 0b01) = 0b01001 ∧ encodeSelector (.hacc 0b11) = 0b01111 := by decide
/-- Counts of table 5.1 over all 32 selectors. -/
theorem test_decode_counts :
    (["RESET", "NOP", "INIT", "NEXT", "RSVD", "WEXP", "ROUND", "HACC"].map fun m =>
      ((List.range 32).filter fun n => (decode (BitVec.ofNat 5 n) 0).mnemonic == m).length) =
    [16, 1, 1, 1, 1, 4, 4, 4] := by decide +kernel
/-- A byte above 31 is no selector; no byte at all; a NEXT without its block. -/
theorem test_decode_refused :
    (match decodeBytes [0b00100000] with | .error e => some e | .ok _ => none) = some .notASelector ∧
    (match decodeBytes [] with | .error e => some e | .ok _ => none) = some .noSelector ∧
    (match decodeBytes [0b00010] with | .error e => some e | .ok _ => none) = some .shortBlock := by decide

/-! ### WellFormed smoke: each check refuses an ill-formed line (R81) -/

theorem test_line_ok : (TraceLine.next (List.replicate 128 'a')).wellFormed = true := by
  decide +kernel
theorem test_line_grouped :
    (TraceLine.next ((List.replicate 16 (List.replicate 8 '0' ++ [' '])).flatten ++ ['_'])).wellFormed = true := by
  decide +kernel
theorem test_line_short : (TraceLine.next (List.replicate 127 'a')).wellFormed = false := by
  decide +kernel
theorem test_line_not_hex : (TraceLine.next ('g' :: List.replicate 127 'a')).wellFormed = false := by
  decide +kernel
theorem test_instr_ok : (Instr.next 0).wellFormed = true := rfl

/-! ### Word functions (section 2 of the vectors) -/

theorem test_rotr : rotr 0x12345678 7 = 0xf02468ac ∧ rotr 0x00000001 31 = 0x00000002 := by decide
theorem test_shr : shr 0xffffffff 3 = 0x1fffffff ∧ shr 0xdeadbeef 10 = 0x0037ab6f := by decide
theorem test_small_sigmas : s0 0xdeadbeef = 0xabd31b0b ∧ s1 0xdeadbeef = 0x689dbfec := by decide
theorem test_big_sigmas : S0 0x6a09e667 = 0xce20b47e ∧ S1 0x510e527f = 0x3587272b := by decide
theorem test_ch_maj :
    ch 0x0000ffff 0xdeadbeef 0xcafebabe = 0xcafebeef ∧ maj 0x0000ffff 0xdeadbeef 0xcafebabe = 0xcaacbeff := by
  decide

/-! ### One step of each operation -/

/-- A small state: idle, with words that tell themselves apart. -/
def small : State where
  phase := .idle
  t := 0
  dvalid := true
  H := #v[1, 2, 3, 4, 5, 6, 7, 8]
  v := #v[11, 12, 13, 14, 15, 16, 17, 18]
  W := Vector.replicate 64 0
  pins := idlePins
  upcoming := []
  freeNext := 80

/-- What a projection of the next state is, if there is one. -/
def after {α : Type} (o : Host.Outcome State Fault Refusal) (f : State → α) : Option α :=
  match o with
  | .next t => some (f t)
  | .fault _ => none
  | .refused _ => none

/-- C2, C3: RESET in the middle of a transaction. -/
theorem test_reset_busy :
    after (step { small with phase := .expand, t := 40, pins := ⟨true, 0b10, 0⟩ })
      (fun s => (s.phase, s.t, s.dvalid)) = some (.idle, 0, false) := by decide
/-- C1: `digest_valid` falls. -/
theorem test_reset_ports :
    after (exec (.reset 0 0) small) (fun s => (s.ready, s.digestValid)) = some (true, false) := by decide
/-- C6: NOP leaves the result readable. -/
theorem test_nop : after (exec .nop small) (fun s => (s.outputs.ready, s.dvalid, s.H)) = some (true, true, small.H) := by
  decide
/-- C9: INIT loads IV, drops `dvalid`, leaves v. -/
theorem test_init :
    after (exec .init small) (fun s => (s.H[0], s.H[7], s.dvalid, s.v)) =
      some (0x6a09e667, 0x5be0cd19, false, small.v) := by decide
/-- C11: the block of "abc". -/
theorem test_next_loads :
    after (exec (.next (0x61626380 <<< 480 ||| 0x18)) { small with W := Vector.replicate 64 9 })
      (fun s => (s.W[0], s.W[14], s.W[15], s.W[16])) = some (0x61626380, 0, 0x18, 9) := by decide +kernel
/-- C12: control, v, and `dvalid`. -/
theorem test_next_control :
    after (exec (.next 0) small) (fun s => (s.phase, s.t, s.dvalid, s.v)) =
      some (.expand, 16, false, #v[1, 2, 3, 4, 5, 6, 7, 8]) := by decide +kernel
/-- C14: RSVD is NOP. -/
theorem test_rsvd :
    after (step { small with pins := ⟨false, 0b11, 5⟩ }) (fun s => (s.phase, s.dvalid, s.H)) =
      some (.idle, true, small.H) := by decide
/-- X9 and X12 (62 to 63), the four words at 46, 47, 55, 60. -/
theorem test_wexp_word :
    after (exec (.wexp 0) { small with
      phase := .expand, t := 62
      W := (((small.W.set 46 0x12345678).set 47 0x9abcdef0).set 55 0x0fedcba9).set 60 0x87654321 })
      (fun s => (s.W[62], s.phase, s.t)) = some (0xf1d610fb, .expand, 63) := by decide +kernel
/-- X13: the last index. -/
theorem test_wexp_last :
    after (exec (.wexp 0) { small with phase := .expand, t := 63, dvalid := false })
      (fun s => (s.phase, s.t, s.dvalid, s.H)) = some (.compress, 0, false, small.H) := by decide +kernel
/-- Y3: round 0 of "abc" from IV. -/
theorem test_round_abc :
    after (exec (.round 0) { small with phase := .compress, v := IV, W := small.W.set 0 0x61626380 })
      (fun s => (s.v, s.phase, s.t)) =
      some (#v[0x5d6aebcd, 0x6a09e667, 0xbb67ae85, 0x3c6ef372, 0xfa2a4622, 0x510e527f, 0x9b05688c, 0x1f83d9ab],
        .compress, 1) := by decide +kernel
/-- Y10: the last round; Y6 for the function (a word of `K` taken away by the schedule word). -/
theorem test_round_last :
    after (exec (.round 0) { small with
      phase := .compress, t := 63, v := #v[1, 2, 3, 4, 5, 6, 7, 8], W := small.W.set 63 (0 - 0xc67178f2) })
      (fun s => (s.v, s.phase, s.t)) =
      some (#v[0x54a80691, 1, 2, 3, 0x14a00292, 5, 6, 7], .update, 0) := by decide +kernel
/-- Z2: no carry between lanes. -/
theorem test_hacc_lanes :
    after (exec (.hacc 0) { small with
      phase := .update, dvalid := false
      H := #v[0, 0xffffffff, 0, 0, 0, 0, 0, 0xffffffff], v := #v[0, 1, 0, 0, 0, 0, 0, 1] })
      (fun s => (s.H, s.phase, s.dvalid)) = some (#v[0, 0, 0, 0, 0, 0, 0, 0], .idle, true) := by decide +kernel
/-- C17: a command in the HACC step is lost. -/
theorem test_hacc_ignores_command :
    after (step { small with phase := .update, pins := ⟨false, 0b10, 3⟩ })
      (fun s => (s.phase, s.H[0], s.v[0])) = some (.idle, 12, 11) := by decide +kernel
/-- The last word of the "abc" schedule (section 3). -/
theorem test_expand_abc : (expand (0x61626380 <<< 480 ||| 0x18))[63] = 0x12b1edeb := by decide +kernel
/-- The digest of "abc" (V2), through the host's side and `compress`. -/
theorem test_digest_abc :
    (match sha256 [0x61, 0x62, 0x63] with
     | .ok H => hex (serialize H)
     | .error _ => "") = "ba7816bf8f01cfea414140de5dae2223b00361a396177a9cb410ff61f20015ad" := by
  decide +kernel
/-- Table 5.6: zero bytes and blocks for L = 55, 56, 64, 119, 1000000. -/
theorem test_pad_counts :
    [55, 56, 64, 119, 1000000].map (fun L => (padZeros L, blockCount L)) =
      [(0, 1), (63, 2), (55, 2), (0, 2), (55, 15626)] := by decide
/-- Section 4.1, `a` x 55: the marker stands directly before the length. -/
theorem test_pad_55 :
    (match pad (List.replicate 55 0x61) with | .ok p => p.drop 54 | .error _ => []) =
      [0x61, 0x80, 0, 0, 0, 0, 0, 0, 0x01, 0xb8] := by decide +kernel
/-- Table 5.6, `serialize` and the port. -/
theorem test_serialize :
    serialize #v[0x2a, 0, 0xffffffff, 0x80000001, 0x01234567, 0x89abcdef, 0xdeadbeef, 1] =
      [0, 0, 0, 0x2a, 0, 0, 0, 0, 0xff, 0xff, 0xff, 0xff, 0x80, 0, 0, 1, 0x01, 0x23, 0x45, 0x67,
       0x89, 0xab, 0xcd, 0xef, 0xde, 0xad, 0xbe, 0xef, 0, 0, 0, 1] := by decide +kernel
theorem test_digest_port :
    (joinWords #v[0x2a, 0, 0xffffffff, 0x80000001, 0x01234567, 0x89abcdef, 0xdeadbeef, 1]).toNat / 2 ^ 224 = 0x2a := by
  decide +kernel
/-- A trace line: 128 digits, the first byte in bits 511:504. -/
theorem test_read_line :
    (match readLine (.next ('6' :: '1' :: List.replicate 126 '0')) with
     | some (.next blk) => blk.toNat >>> 504 == 0x61
     | _ => false) = true := by decide +kernel
/-- `withFetchWord` on the state after reset: HACC runs as the next step. -/
theorem test_fetch_word : (State.reset.withFetchWord 8 0b01100).fetch = .hacc 0 := by decide +kernel

/-! ### Witnesses: for every statement with hypotheses, a case that meets them all -/

/-- A busy core at a given point, the host driving what is given and holding it. -/
def at_ (p : Phase) (t : BitVec 6) (pins : Pins) : State :=
  { small with phase := p, t := t, dvalid := false, pins := pins }

/-- What is driven there is driven at every later step. -/
theorem pinsAt_at (p : Phase) (t : BitVec 6) (pins : Pins) (k : Nat) : (at_ p t pins).pinsAt k = pins :=
  pinsAt_of_upcoming_nil rfl k

/-- Patterns that follow in order from a state that drives them. -/
def followsB (s : State) : List LinePattern → Bool
  | [] => true
  | p :: ps => p.accepts s.pins && followsB s.advancePins ps

theorem follows_of_followsB (s : State) (ps : List LinePattern) (h : followsB s ps = true) : Follows s ps := by
  induction ps generalizing s with
  | nil => exact fun k hk => absurd hk (Nat.not_lt_zero k)
  | cons p ps ih =>
    rw [followsB, Bool.and_eq_true] at h
    intro k hk
    cases k with
    | zero => exact h.1
    | succ k => exact ih s.advancePins h.2 k (Nat.lt_of_succ_lt_succ hk)

theorem witness_StepPerformsDecodedOperation :
    exec (decode (selector small.pins.reset small.phase.code small.pins.cmd) small.pins.block) small =
      .next small := rfl

theorem witness_StepRunsEncodedInstruction :
    (Instr.next 5).wellFormed = true ∧
    (at_ .idle 0 ⟨false, 0b10, 5⟩).selector = encodeSelector (.next 5) ∧
    ∀ blk, Instr.next 5 = .next blk → (at_ .idle 0 ⟨false, 0b10, 5⟩).pins.block = blk :=
  ⟨rfl, by decide, fun _ h => Instr.next.inj h⟩

theorem witness_PlacedTableWordIsFetched :
    decodeTableWord 8 0b01100 = some (.hacc 0) ∧ (decodeTableWord 8 0b00010).isSome = true := by decide

theorem witness_DecodeOfEncode : (Instr.reset 0b11 0b01).wellFormed = true ∧ (Instr.next 7).wellFormed = true :=
  ⟨rfl, rfl⟩

theorem witness_EncodeOfDecode : decodeBytes [0b11011, 9] = .ok (.reset 0b10 0b11, [9]) := rfl

theorem witness_DecodeRefusals :
    decodeBytes [] = .error .noSelector ∧ decodeBytes [32] = .error .notASelector ∧
    decodeBytes [0b00010] = .error .shortBlock := ⟨rfl, rfl, rfl⟩

theorem witness_ResetForgets :
    small ≠ at_ .compress 12 idlePins ∧ small.pins = (at_ .compress 12 idlePins).pins ∧
    small.upcoming = (at_ .compress 12 idlePins).upcoming ∧
    small.freeNext = (at_ .compress 12 idlePins).freeNext := ⟨by decide, rfl, rfl, rfl⟩

theorem witness_WexpEffect :
    16 ≤ 16 ∧ 16 < 64 ∧ (at_ .expand 16 idlePins).t.toNat = 16 ∧
    16 ≤ 63 ∧ 63 < 64 ∧ (at_ .expand 63 idlePins).t.toNat = 63 := by decide

theorem witness_WexpBelowSixteenRuns :
    0 < 16 ∧ (at_ .expand 0 idlePins).t.toNat = 0 ∧ 15 < 16 ∧ (at_ .expand 15 idlePins).t.toNat = 15 := by
  decide

theorem witness_RoundEffect :
    0 < 64 ∧ (at_ .compress 0 idlePins).t.toNat = 0 ∧ 63 < 64 ∧ (at_ .compress 63 idlePins).t.toNat = 63 := by
  decide

/-- The index ranges of the two clauses of NEXT, which meet at 16. -/
theorem witness_NextEffect : (0 < 16 ∧ 15 < 16) ∧ (16 < 64 ∧ 16 ≤ 16) ∧ 63 < 64 ∧ 16 ≤ 63 := by decide

theorem witness_HaccEffect : 0 < 8 ∧ 7 < 8 := by decide

theorem witness_ChooseAndMajorityBits : 0 < 32 ∧ 31 < 32 := by decide

theorem witness_RoundConstantsFromPrimes : 0 < 64 ∧ 63 < 64 := by decide

theorem witness_InitialValueFromPrimes : 0 < 8 ∧ 7 < 8 := by decide

theorem witness_OutputPorts : 0 < 8 ∧ 7 < 8 := by decide

theorem witness_CompressIsItsParts : 0 < 8 ∧ 7 < 8 := by decide

theorem witness_BlockWordsAreBigEndian : ∃ t, exec (.next 7) small = .next t ∧ 0 < 16 ∧ 15 < 16 :=
  ⟨_, rfl, by decide⟩

theorem witness_RotationAndShift : (0 < 1 ∧ 1 < 32) ∧ 0 < 31 ∧ 31 < 32 := by decide

theorem witness_SimultaneousEvents :
    (at_ .update 0 ⟨true, 0b10, 0⟩).pins.reset = true ∧
    (at_ .expand 16 ⟨false, 0b10, 0⟩).pins.reset = false ∧ (at_ .expand 16 ⟨false, 0b10, 0⟩).phase = .expand ∧
    (at_ .compress 0 ⟨false, 0b01, 0⟩).phase = .compress ∧ (at_ .update 0 ⟨false, 0b11, 0⟩).phase = .update ∧
    (at_ .idle 0 ⟨false, 0b00, 0⟩).pins.cmd = 0b00 ∧ (at_ .idle 0 ⟨false, 0b01, 0⟩).pins.cmd = 0b01 ∧
    (at_ .idle 0 ⟨false, 0b10, 0⟩).pins.cmd = 0b10 ∧ (at_ .idle 0 ⟨false, 0b11, 0⟩).pins.cmd = 0b11 ∧
    (at_ .idle 0 ⟨false, 0b11, 0⟩).phase = .idle := by decide

/-- A busy core with other `cmd` and `block`; an idle one with another `block` under NOP. -/
theorem witness_UnsampledPortsDoNotMatter :
    (∃ (s : State) (p : Pins), p ≠ s.pins ∧ p.reset = s.pins.reset ∧ s.phase = .compress) ∧
    ∃ (s : State) (p : Pins), p ≠ s.pins ∧ p.reset = s.pins.reset ∧ s.pins.reset = false ∧ s.phase = .idle ∧
      p.cmd = s.pins.cmd ∧ s.pins.cmd ≠ 0b10 :=
  ⟨⟨at_ .compress 1 ⟨false, 0b10, 1⟩, ⟨false, 0b01, 2⟩, by decide +kernel, rfl, rfl⟩,
   at_ .idle 0 ⟨false, 0b00, 1⟩, ⟨false, 0b00, 2⟩, by decide +kernel, rfl, rfl, rfl, rfl, by decide⟩

/-- HACC changes H, `dvalid` and `phase`, ROUND v and `t`, WEXP W. -/
theorem witness_OnlyNamedOperationsWrite :
    after (step (at_ .update 0 idlePins)) (fun t => (t.H == small.H, t.dvalid, t.phase)) =
      some (false, true, .idle) ∧
    after (step (at_ .compress 3 idlePins)) (fun t => (t.v == small.v, t.t)) = some (false, 4) ∧
    after (step { at_ .expand 62 idlePins with W := Vector.replicate 64 1 })
      (fun t => t.W == Vector.replicate 64 1) = some false := by decide +kernel

theorem witness_ResetStepFromAnyState : (at_ .compress 12 ⟨true, 0b10, 3⟩).pins.reset = true := rfl

/-- NEXT driven and held without `reset`: the hypotheses on a run from an idle core. -/
theorem witness_ScheduleExpansion :
    (0 < 16 ∧ 15 < 16) ∧ (16 ≤ 16 ∧ 16 ≤ 63 ∧ 63 < 64) ∧ 0 ≤ 48 ∧ 48 ≤ 48 ∧
    (at_ .idle 0 ⟨false, 0b10, 7⟩).phase = .idle ∧ (at_ .idle 0 ⟨false, 0b10, 7⟩).pins.reset = false ∧
    (at_ .idle 0 ⟨false, 0b10, 7⟩).pins.cmd = 0b10 ∧
    ∀ k, k ≤ 48 → ((at_ .idle 0 ⟨false, 0b10, 7⟩).pinsAt k).reset = false :=
  ⟨by decide, by decide, by decide, by decide, rfl, rfl, rfl, fun k _ => by rw [pinsAt_at]⟩

theorem witness_RoundIsBijection : 63 < 64 ∧ (at_ .compress 63 idlePins).t.toNat = 63 := by decide

theorem witness_CompressionRounds :
    (at_ .compress 0 idlePins).phase = .compress ∧ (at_ .compress 0 idlePins).t = 0 ∧ 0 ≤ 64 ∧ 64 ≤ 64 ∧
    ∀ k, k < 64 → ((at_ .compress 0 idlePins).pinsAt k).reset = false :=
  ⟨rfl, rfl, by decide, by decide, fun k _ => by rw [pinsAt_at]; rfl⟩

theorem witness_BlockTransactionLaw :
    (at_ .idle 0 ⟨false, 0b10, 7⟩).phase = .idle ∧ (at_ .idle 0 ⟨false, 0b10, 7⟩).pins.reset = false ∧
    (at_ .idle 0 ⟨false, 0b10, 7⟩).pins.cmd = 0b10 ∧ (at_ .idle 0 ⟨false, 0b10, 7⟩).pins.block = 7 ∧
    ∀ k, 1 ≤ k → k ≤ 113 → ((at_ .idle 0 ⟨false, 0b10, 7⟩).pinsAt k).reset = false :=
  ⟨rfl, rfl, rfl, rfl, fun k _ _ => by rw [pinsAt_at]⟩

/-- INIT, one idle step, one block held to the end of its transaction and then released. -/
def chaining : State :=
  { at_ .idle 0 ⟨false, 0b01, 0⟩ with
    upcoming := idlePins :: List.replicate 114 ⟨false, 0b10, 7⟩ ++ [idlePins] }

theorem witness_ChainingLaw :
    chaining.phase = .idle ∧ [((1 : Nat), (7 : Block))] ≠ [] ∧ Follows chaining (messagePatterns [(1, 7)] 2) :=
  ⟨rfl, by decide, follows_of_followsB _ _ (by decide +kernel)⟩

theorem witness_IdleCoreHolds :
    (at_ .idle 0 ⟨false, 0b11, 9⟩).phase = .idle ∧ Follows (at_ .idle 0 ⟨false, 0b11, 9⟩) (List.replicate 3 .idle) :=
  ⟨rfl, follows_of_followsB _ _ (by decide +kernel)⟩

/-- The longest case, right after a NEXT, and the shortest, an idle core. -/
theorem witness_TransactionTerminates :
    ControlInv (at_ .expand 16 idlePins) ∧ (at_ .expand 16 idlePins).stepsToReady = 113 ∧
    (∀ k, k < 113 → ((at_ .expand 16 idlePins).pinsAt k).reset = false) ∧
    ControlInv (at_ .idle 0 idlePins) ∧ (at_ .idle 0 idlePins).stepsToReady = 0 :=
  ⟨⟨by decide, by decide, by decide, by decide⟩, rfl, fun k _ => by rw [pinsAt_at]; rfl,
   ⟨by decide, by decide, by decide, by decide⟩, rfl⟩

theorem witness_HeldCommandRunsAgain :
    ((at_ .idle 0 ⟨false, 0b10, 7⟩).phase = .idle ∧
      ∀ k, k < 114 * 2 → (at_ .idle 0 ⟨false, 0b10, 7⟩).pinsAt k = ⟨false, 0b10, 7⟩) ∧
    (at_ .update 0 ⟨false, 0b01, 0⟩).phase = .update ∧ (at_ .update 0 ⟨false, 0b01, 0⟩).pins.reset = false ∧
    ((at_ .update 0 ⟨false, 0b01, 0⟩).pinsAt 1).reset = false ∧
    ((at_ .update 0 ⟨false, 0b01, 0⟩).pinsAt 1).cmd = 0b01 :=
  ⟨⟨rfl, fun k _ => pinsAt_at _ _ _ k⟩, rfl, rfl, rfl, rfl⟩

/-- All words written, those of the current transaction included. -/
def allMarks : Marks where
  H := Vector.replicate 8 true
  v := Vector.replicate 8 true
  W := Vector.replicate 64 true
  current := Vector.replicate 64 true

theorem witness_StepKeepsReachableInv :
    ReachableInv (at_ .expand 63 idlePins) allMarks ∧ ∃ t, step (at_ .expand 63 idlePins) = .next t :=
  ⟨⟨by decide, fun _ => ⟨by decide, by decide, fun i h _ => by simp [allMarks]⟩, by decide, by decide, by decide,
     by decide⟩, _, step_expand _ rfl rfl (by decide)⟩

theorem witness_ResetEstablishesReachableInv :
    (at_ .compress 12 ⟨true, 0, 0⟩).pins.reset = true ∧ ∃ t, step (at_ .compress 12 ⟨true, 0, 0⟩) = .next t :=
  ⟨rfl, _, step_reset _ rfl⟩

/-- A core in the middle of the rounds of block 7. -/
def midRounds : State :=
  { at_ .compress 3 idlePins with W := expand 7, v := roundsUpTo small.H (expand 7) 3 }

theorem witness_StepKeepsDataInv : DataInv midRounds ∧ ∃ t, step midRounds = .next t :=
  ⟨⟨⟨nofun, nofun, nofun, fun _ => rfl⟩, 7, rfl, rfl⟩, _,
    step_compress _ rfl rfl⟩

/-- The marks call `v[0]` unspecified, and the two states differ there. -/
def oneMissing : Marks := { allMarks with v := allMarks.v.set 0 false }

theorem witness_MarksAreSound :
    let s₁ := at_ .update 0 idlePins
    let s₂ := { s₁ with v := s₁.v.set 0 99 }
    s₁.v ≠ s₂.v ∧ oneMissing.Agree s₁ s₂ ∧ (∃ t, exec (.hacc 0) s₁ = .next t) ∧ ∃ t, exec (.hacc 0) s₂ = .next t :=
  ⟨by decide, ⟨rfl, rfl, rfl, rfl, rfl, fun _ _ _ => rfl, by decide, fun _ _ _ => rfl⟩, ⟨_, rfl⟩, _, rfl⟩

theorem witness_CorrectUseReadsWrittenWords :
    ((at_ .idle 0 ⟨false, 0b01, 0⟩).phase = .idle ∧ (at_ .idle 0 ⟨false, 0b01, 0⟩).fetch = .init ∧
      ∃ t, step (at_ .idle 0 ⟨false, 0b01, 0⟩) = .next t) ∧
    ControlInv (at_ .expand 16 idlePins) ∧ allMarks.DataReady (at_ .expand 16 idlePins) ∧
    (at_ .expand 16 idlePins).pins.reset = false ∧ ∃ t, step (at_ .expand 16 idlePins) = .next t :=
  ⟨⟨rfl, rfl, _, step_init _ rfl rfl rfl⟩, ⟨by decide, by decide, by decide, by decide⟩,
   ⟨by decide, fun _ => by decide, fun _ i h _ => by simp [allMarks], by decide⟩, rfl, _,
   step_expand _ rfl rfl (by decide)⟩

theorem witness_PaddingShape : ([] : List Byte).length < 2 ^ 61 ∧ [0x61, 0x62, (0x63 : Byte)].length < 2 ^ 61 := by
  decide

theorem witness_LongMessageRefused : 2 ^ 61 ≤ (List.replicate (2 ^ 61) (0 : Byte)).length := by
  rw [List.length_replicate]

theorem witness_SegmentationBytes :
    (List.replicate 128 (0 : Byte)).length = 64 * 2 ∧ 0 < 2 ∧ 1 < 2 ∧ 0 < 64 ∧ 63 < 64 := by
  rw [List.length_replicate]; decide

theorem witness_SerializedDigest : (0 < 8 ∧ 7 < 8) ∧ 0 < 4 ∧ 3 < 4 := by decide

theorem witness_HexText : (0 < 8 ∧ 7 < 8) ∧ 0 < 8 ∧ 7 < 8 := by decide

/-- The empty message: its one block (section 4.1), and a host that drives it. -/
def emptyBlock : Block := blockOfBytes (0x80 :: List.replicate 63 0)

def hashingEmpty : State :=
  { at_ .idle 0 ⟨false, 0b01, 0⟩ with upcoming := [⟨false, 0b10, emptyBlock⟩, idlePins] }

theorem witness_DigestOfMessage :
    ([] : List Byte).length < 2 ^ 61 ∧ hashingEmpty.phase = .idle ∧
    pad [] = .ok (0x80 :: List.replicate 63 0) ∧
    [((0 : Nat), emptyBlock)].map Prod.snd = Machine.segment (0x80 :: List.replicate 63 0) ∧
    Follows hashingEmpty (messagePatterns [(0, emptyBlock)] 0) :=
  ⟨by decide, rfl, by decide +kernel, by decide +kernel, follows_of_followsB _ _ (by decide +kernel)⟩

/-- `pinsOf` drives what the lines say. -/
theorem drives_pinsOf (lines : List HostCommand) :
    List.Forall₂ (fun c p => drives c p = true) lines (lines.map pinsOf) := by
  rw [List.forall₂_map_right_iff, List.forall₂_same]
  intro c _
  cases c <;> simp [drives, pinsOf]

/-- The lines of `DIGEST` of the empty message, and pins that show them. -/
theorem witness_PseudoOperations :
    ((at_ .idle 0 ⟨false, 0b10, 7⟩).phase = .idle ∧
      (at_ .idle 0 ⟨false, 0b10, 7⟩).fetch = .next (at_ .idle 0 ⟨false, 0b10, 7⟩).pins.block ∧
      ∃ t, step (at_ .idle 0 ⟨false, 0b10, 7⟩) = .next t) ∧
    (∃ padded, pad [] = .ok padded) ∧
    small.phase = .idle ∧ ∃ lines ps, expandPseudo small (.digest []) = .ok lines ∧
      List.Forall₂ (fun c p => drives c p = true) lines ps :=
  ⟨⟨rfl, rfl, _, step_next _ rfl rfl rfl⟩, ⟨_, rfl⟩, rfl, _, _, rfl, drives_pinsOf _⟩

theorem witness_TraceLinesSelect :
    drives .reset ⟨true, 0b11, 9⟩ = true ∧ drives .nop ⟨false, 0b00, 9⟩ = true ∧
    drives .init ⟨false, 0b01, 9⟩ = true ∧ drives (.next 9) ⟨false, 0b10, 9⟩ = true ∧
    drives .rsvd (at_ .expand 16 ⟨false, 0b11, 9⟩).pins = true ∧
    HostCommand.rsvd ≠ .reset ∧ (at_ .expand 16 ⟨false, 0b11, 9⟩).phase = .expand ∧
    drives .rsvd (at_ .compress 0 ⟨false, 0b11, 9⟩).pins = true ∧
    drives .rsvd (at_ .update 0 ⟨false, 0b11, 9⟩).pins = true := by decide +kernel

theorem witness_NextLineDigits :
    (0 < 16 ∧ 9 < 16 ∧ 10 < 16 ∧ 15 < 16) ∧
    List.replicate 128 'a' = (List.replicate 128 'a').filter (fun c => c != ' ' && c != '_') ∧
    (TraceLine.next (List.replicate 127 'a')).wellFormed = false ∧
    (TraceLine.next (List.replicate 128 'a')).wellFormed = true ∧ 0 < 64 ∧ 63 < 64 :=
  ⟨by decide, by decide +kernel, test_line_short, test_line_ok, by decide⟩

end Sys2Proof.Tests
end

section
/-! PROOFS. Facts about the operations that the obligations of 10_state.md share: the form of WEXP in every
state, totality, and the operand bits and pins that no meaning reads. -/

namespace Sys2Proof.Machine

variable (s : State)

/-- In any state WEXP writes one word of W, perhaps the free-word counter (log 8), and the control state. -/
theorem execWexp_eq_setW : ∃ (w : Word) (n : Nat),
    execWexp s = .next (((s.setW (s.W.set s.t.toNat w s.t.isLt)).setFree n).advance .compress) := by
  by_cases h : s.t.toNat < 16
  · exact ⟨_, _, execWexp_of_lt s h⟩
  · exact ⟨_, s.freeNext, execWexp_of_le s (Nat.not_lt.mp h)⟩

/-- Every operation answers a next state (R190). -/
theorem exec_total (i : Instr) : ∃ u, exec i s = .next u := by
  cases i with
  | wexp _ =>
    obtain ⟨_, _, h⟩ := execWexp_eq_setW s
    exact ⟨_, h⟩
  | reset _ _ | nop | init | next _ | rsvd | round _ | hacc _ => exact ⟨_, rfl⟩

theorem advance_setPins (p : Pins) (l : List Pins) (next : Phase) :
    (s.setPins p l).advance next = (s.advance next).setPins p l := by
  rw [advance_eq, advance_eq]
  rfl

/-- The meaning of an operation reads no pins: it takes its block as an operand. -/
theorem exec_setPins {i : Instr} {u : State} (p : Pins) (l : List Pins) (h : exec i s = .next u) :
    exec i (s.setPins p l) = .next (u.setPins p l) := by
  cases i with
  | wexp _ =>
    change execWexp s = .next u at h
    change execWexp (s.setPins p l) = .next (u.setPins p l)
    by_cases h16 : s.t.toNat < 16
    · rw [execWexp_of_lt s h16] at h
      cases h
      rw [execWexp_of_lt (s.setPins p l) h16, ← advance_setPins]
      rfl
    · have h16 := Nat.not_lt.mp h16
      rw [execWexp_of_le s h16] at h
      cases h
      rw [execWexp_of_le (s.setPins p l) h16, ← advance_setPins]
      rfl
  | round _ =>
    cases h
    exact congrArg Host.Outcome.next (advance_setPins (s.setV (round s.v s.kt s.wt)) p l .update)
  | reset _ _ | nop | init | next _ | rsvd | hacc _ =>
    cases h
    rfl

/-- The fetched operation has one meaning for all values of the ports that R23 says are not sampled: what
differs are ignored operand bits (R73, R78). -/
theorem exec_fetch_setPins (p : Pins) (l : List Pins) (x : State) (hr : p.reset = s.pins.reset)
    (hc : s.pins.reset = false → s.phase = .idle → p.cmd = s.pins.cmd)
    (hb : s.pins.reset = false → s.phase = .idle → s.pins.cmd = 0b10 → p.block = s.pins.block) :
    exec (s.setPins p l).fetch x = exec s.fetch x := by
  cases h : s.pins.reset with
  | true =>
    rw [fetch_of_reset s h, fetch_of_reset (s.setPins p l) (hr.trans h)]
    rfl
  | false =>
    have h' : (s.setPins p l).pins.reset = false := hr.trans h
    cases hp : s.phase with
    | idle =>
      rw [fetch_of_idle s h hp, fetch_of_idle (s.setPins p l) h' hp, State.setPins_pins, hc h hp]
      by_cases h2 : s.pins.cmd = 0b10
      · rw [hb h hp h2]
      · simp only [if_neg h2]
    | expand =>
      rw [fetch_of_expand s h hp, fetch_of_expand (s.setPins p l) h' hp]
      rfl
    | compress =>
      rw [fetch_of_compress s h hp, fetch_of_compress (s.setPins p l) h' hp]
      rfl
    | update =>
      rw [fetch_of_update s h hp, fetch_of_update (s.setPins p l) h' hp]
      rfl

end Sys2Proof.Machine
end

section
/-! PROOFS. The invariants of R40: one lemma per phase says what is left to show there, then every step. -/

namespace Sys2Proof.Machine

section Phases

variable {s : State} {m : Marks}

theorem reachableInv_of_idle (hp : s.phase = .idle) (ht : s.t = 0) : ReachableInv s m :=
  ⟨fun _ => ht, by simp [hp], by simp [hp], by simp [hp], by simp [hp], fun _ => hp⟩

theorem reachableInv_of_expand (hp : s.phase = .expand) (hd : s.dvalid = false) (h16 : 16 ≤ s.t.toNat)
    (hc : ∀ (i : Nat) (h : i < 64), i < s.t.toNat → m.current[i] = true) : ReachableInv s m :=
  ⟨by simp [hp], fun _ => ⟨h16, Nat.le_of_lt_succ s.t.isLt, hc⟩, by simp [hp], by simp [hp], fun _ => hd, by simp [hd]⟩

theorem reachableInv_of_compress (hp : s.phase = .compress) (hd : s.dvalid = false)
    (hc : ∀ (i : Nat) (h : i < 64), m.current[i] = true) : ReachableInv s m :=
  ⟨by simp [hp], by simp [hp], fun _ => ⟨Nat.le_of_lt_succ s.t.isLt, hc⟩, by simp [hp], fun _ => hd, by simp [hd]⟩

theorem reachableInv_of_update (hp : s.phase = .update) (hd : s.dvalid = false) (ht : s.t = 0) :
    ReachableInv s m :=
  ⟨by simp [hp], by simp [hp], by simp [hp], fun _ => ht, fun _ => hd, by simp [hd]⟩

end Phases

/-- WEXP marks the word at `t` as of this transaction, so that all below the next index are. -/
theorem current_after_wexp {s : State} {m : Marks} {cmd : BitVec 2}
    (hc : ∀ (i : Nat) (h : i < 64), i < s.t.toNat → m.current[i] = true) (i : Nat) (h : i < 64)
    (hi : i < s.t.toNat + 1) : (m.after s (.wexp cmd)).current[i] = true := by
  simp only [Marks.after, Vector.getElem_set]
  split
  · rfl
  · exact hc i h (by omega)

/-- Settles O39: by the cases of a step, each landing in one phase. -/
theorem stepKeepsReachableInv : Obligations.StepKeepsReachableInv := by
  intro s t m inv h
  obtain ⟨-, -, rfl⟩ | ⟨-, hp, -, rfl⟩ | ⟨-, hp, -, -, rfl⟩ | ⟨-, -, -, hf, rfl⟩ | ⟨-, hp, hf, u, hu, rfl⟩ |
    ⟨-, hp, hf, rfl⟩ | ⟨-, hp, -, rfl⟩ := step_cases s h
  · exact reachableInv_of_idle (by simp) (by simp)
  · exact reachableInv_of_idle (by simp [hp]) (by simp [inv.idle hp])
  · exact reachableInv_of_idle (by simp [hp]) (by simp [inv.idle hp])
  · refine reachableInv_of_expand (by simp) (by simp) (by simp) fun i hi h16 => ?_
    rw [hf]
    simpa [Marks.after] using h16
  · obtain ⟨h16, -, hc⟩ := inv.expand hp
    have hd := inv.busy (by simp [hp])
    obtain ⟨w, n, hw⟩ := execWexp_eq_setW s
    cases hu.symm.trans hw
    rw [hf]
    by_cases hl : s.t = 63#6
    · refine reachableInv_of_compress (by simp [advance_phase, hl]) (by simp [hd]) fun i hi => ?_
      exact current_after_wexp hc i hi (by rw [eq_last_iff.mp hl]; omega)
    · have ht := toNat_succ_of_ne_last hl
      refine reachableInv_of_expand (by simp [advance_phase, hl, hp]) (by simp [hd]) ?_ fun i hi hlt => ?_
      · simpa [advance_t, hl, ht] using Nat.le_succ_of_le h16
      · exact current_after_wexp hc i hi (by simpa [advance_t, hl, ht] using hlt)
  · obtain ⟨-, hc⟩ := inv.compress hp
    have hd := inv.busy (by simp [hp])
    rw [hf]
    by_cases hl : s.t = 63#6
    · exact reachableInv_of_update (by simp [advance_phase, hl]) (by simp [hd]) (by simp [advance_t, hl])
    · exact reachableInv_of_compress (by simp [advance_phase, hl, hp]) (by simp [hd]) hc
  · exact reachableInv_of_idle (by simp) (by simp [inv.update hp])

/-- Settles O40: the state after a reset is idle at index 0. -/
theorem resetEstablishesReachableInv : Obligations.ResetEstablishesReachableInv := by
  refine ⟨reachableInv_of_idle rfl rfl, fun s t m hr h => ?_⟩
  cases h.symm.trans (step_reset s hr)
  exact reachableInv_of_idle (by simp) (by simp)

/-- Settles O42: an idle core is on any block. -/
theorem resetHasDataInv : Obligations.ResetHasDataInv where
  control := ⟨fun _ => rfl, nofun, nofun, fun h => absurd rfl h⟩
  onBlock := ⟨0, trivial⟩

end Sys2Proof.Machine
end

section
/-! PROOFS. The marks of R41: how each register write keeps the agreement of two states, then every
operation. -/

namespace Sys2Proof.Machine

section Writes

variable {m : Marks} {s₁ s₂ : State}

/-- Where nothing is marked written, only control and inputs have to agree. -/
theorem Marks.Agree.unspecified (hp : s₁.phase = s₂.phase) (ht : s₁.t = s₂.t) (hd : s₁.dvalid = s₂.dvalid)
    (hi : s₁.pins = s₂.pins) (hu : s₁.upcoming = s₂.upcoming) : Marks.unspecified.Agree s₁ s₂ := by
  constructor
  case phase | t | dvalid | pins | upcoming => assumption
  all_goals simp [Marks.unspecified]

theorem Marks.Agree.setControl (h : m.Agree s₁ s₂) (p : Phase) {t₁ t₂ : BitVec 6} (ht : t₁ = t₂) :
    m.Agree (s₁.setControl p t₁) (s₂.setControl p t₂) :=
  { h with phase := rfl, t := ht }

theorem Marks.Agree.setDvalid (h : m.Agree s₁ s₂) (b : Bool) : m.Agree (s₁.setDvalid b) (s₂.setDvalid b) :=
  { h with dvalid := rfl }

theorem Marks.Agree.setFree (h : m.Agree s₁ s₂) (n₁ n₂ : Nat) : m.Agree (s₁.setFree n₁) (s₂.setFree n₂) :=
  { h with }

theorem Marks.Agree.advance (h : m.Agree s₁ s₂) (next : Phase) :
    m.Agree (s₁.advance next) (s₂.advance next) := by
  rw [advance_eq, advance_eq, h.phase, h.t]
  exact h.setControl _ rfl

theorem Marks.Agree.setH (h : m.Agree s₁ s₂) {b : Vector Bool 8} {x y : Vector Word 8}
    (hb : ∀ (k : Nat) (_ : k < 8), b[k] = true → x[k] = y[k]) :
    Marks.Agree { m with H := b } (s₁.setH x) (s₂.setH y) :=
  { h with H := hb }

theorem Marks.Agree.setV (h : m.Agree s₁ s₂) {b : Vector Bool 8} {x y : Vector Word 8}
    (hb : ∀ (k : Nat) (_ : k < 8), b[k] = true → x[k] = y[k]) :
    Marks.Agree { m with v := b } (s₁.setV x) (s₂.setV y) :=
  { h with v := hb }

/-- The marks of the current transaction take no part in the agreement. -/
theorem Marks.Agree.setW (h : m.Agree s₁ s₂) {b c : Vector Bool 64} {x y : Vector Word 64}
    (hb : ∀ (i : Nat) (_ : i < 64), b[i] = true → x[i] = y[i]) :
    Marks.Agree { m with W := b, current := c } (s₁.setW x) (s₂.setW y) :=
  { h with W := hb }

/-- One word of W written on both sides: it may differ only if its mark says so. -/
theorem Marks.Agree.setWordW (h : m.Agree s₁ s₂) {n : Nat} (hn : n < 64) {b : Bool} {c : Vector Bool 64}
    {w₁ w₂ : Word} (hw : b = true → w₁ = w₂) :
    Marks.Agree { m with W := m.W.set n b, current := c } (s₁.setW (s₁.W.set n w₁)) (s₂.setW (s₂.W.set n w₂)) := by
  refine h.setW fun i hi => ?_
  simp only [Vector.getElem_set]
  split
  · exact hw
  · exact h.W i hi

end Writes

/-- The word WEXP derives agrees where the four words it reads are written. -/
theorem scheduleWord_agree {m : Marks} {s₁ s₂ : State} (h : m.Agree s₁ s₂) {t : Nat} (h16 : 16 ≤ t) (h64 : t < 64)
    (hw : scheduleWritten m.W t h64 = true) : scheduleWord s₁.W t h16 h64 = scheduleWord s₂.W t h16 h64 := by
  simp only [scheduleWritten, dif_pos h16, Bool.and_eq_true] at hw
  obtain ⟨⟨⟨h1, h2⟩, h3⟩, h4⟩ := hw
  rw [scheduleWord, scheduleWord, h.W _ _ h1, h.W _ _ h2, h.W _ _ h3, h.W _ _ h4]

/-- WEXP: below index 16 the word written is marked unspecified, so that the free words may differ. -/
theorem agree_after_wexp {m : Marks} {s₁ s₂ t₁ t₂ : State} {cmd : BitVec 2} (h : m.Agree s₁ s₂)
    (h₁ : execWexp s₁ = .next t₁) (h₂ : execWexp s₂ = .next t₂) : (m.after s₁ (.wexp cmd)).Agree t₁ t₂ := by
  have ht := h.t
  by_cases h16 : 16 ≤ s₁.t.toNat
  · cases h₁.symm.trans (execWexp_of_le s₁ h16)
    cases h₂.symm.trans (execWexp_of_le s₂ (ht ▸ h16))
    simp only [← ht]
    exact (h.setWordW _ (scheduleWord_agree h h16 _)).advance _
  · have h16' := Nat.not_le.mp h16
    cases h₁.symm.trans (execWexp_of_lt s₁ h16')
    cases h₂.symm.trans (execWexp_of_lt s₂ (ht ▸ h16'))
    simp only [← ht]
    exact ((h.setWordW _ fun hw => by simp [scheduleWritten, h16] at hw).setFree _ _).advance _

/-- Eight written words of v agree as a whole. -/
theorem v_eq_of_allWritten {m : Marks} {s₁ s₂ : State} (h : m.Agree s₁ s₂) (hv : allWritten m.v = true) :
    s₁.v = s₂.v := by
  simp only [allWritten, Bool.and_eq_true] at hv
  apply Vector.ext
  intro k hk
  apply h.v k hk
  interval_cases k <;> simp [hv]

/-- ROUND: the two computed words need every word it reads, the other six are copies. -/
theorem agree_after_round {m : Marks} {s₁ s₂ : State} {cmd : BitVec 2} (h : m.Agree s₁ s₂) :
    (m.after s₁ (.round cmd)).Agree ((s₁.setV (round s₁.v s₁.kt s₁.wt)).advance .update)
      ((s₂.setV (round s₂.v s₂.kt s₂.wt)).advance .update) := by
  have hk : s₁.kt = s₂.kt := by simp only [State.kt, h.t]
  have computed : (allWritten m.v && m.W[s₁.t.toNat]'s₁.t.isLt) = true →
      round s₁.v s₁.kt s₁.wt = round s₂.v s₂.kt s₂.wt := by
    intro hall
    obtain ⟨hv, hw⟩ := Bool.and_eq_true_iff.mp hall
    have hwt : s₁.wt = s₂.wt := (h.W _ _ hw).trans (by simp only [State.wt, h.t])
    rw [v_eq_of_allWritten h hv, hk, hwt]
  refine (h.setV fun k hk hb => ?_).advance _
  interval_cases k
  · rw [computed hb]
  · exact h.v 0 _ hb
  · exact h.v 1 _ hb
  · exact h.v 2 _ hb
  · rw [computed hb]
  · exact h.v 4 _ hb
  · exact h.v 5 _ hb
  · exact h.v 6 _ hb

/-- HACC: a lane needs both words it adds. -/
theorem agree_after_hacc {m : Marks} {s₁ s₂ : State} {cmd : BitVec 2} (h : m.Agree s₁ s₂) :
    (m.after s₁ (.hacc cmd)).Agree (((s₁.setH (addLanes s₁.H s₁.v)).setDvalid true).setControl .idle s₁.t)
      (((s₂.setH (addLanes s₂.H s₂.v)).setDvalid true).setControl .idle s₂.t) := by
  refine ((h.setH fun k hk hb => ?_).setDvalid true).setControl .idle h.t
  obtain ⟨hH, hv⟩ : m.H[k] = true ∧ m.v[k] = true := by simpa using hb
  rw [addLanes_getElem, addLanes_getElem, h.H k hk hH, h.v k hk hv]

/-- NEXT: the sixteen words of the block are the same on both sides, and v has the marks of H. -/
theorem agree_after_next {m : Marks} {s₁ s₂ : State} {blk : Block} (h : m.Agree s₁ s₂) :
    (m.after s₁ (.next blk)).Agree
      ((((s₁.setW (wload blk s₁.W)).setV s₁.H).setControl .expand 16).setDvalid false)
      ((((s₂.setW (wload blk s₂.W)).setV s₂.H).setControl .expand 16).setDvalid false) := by
  have hW : ∀ (i : Nat) (_ : i < 64), (m.after s₁ (.next blk)).W[i] = true →
      (wload blk s₁.W)[i] = (wload blk s₂.W)[i] := by
    intro i hi hb
    rw [wload_getElem, wload_getElem]
    split
    · rfl
    · next hlt => exact h.W i hi (by simpa [Marks.after, hlt] using hb)
  have copied := (h.setW (c := (m.after s₁ (.next blk)).current) hW).setV h.H
  exact (copied.setControl .expand rfl).setDvalid false

/-- Settles O43: by the operation, each as its register writes. -/
theorem marksAreSound : Obligations.MarksAreSound := by
  intro i m s₁ s₂ t₁ t₂ h h₁ h₂
  cases i with
  | wexp _ => exact agree_after_wexp h h₁ h₂
  | reset _ _ =>
    cases h₁
    cases h₂
    exact .unspecified rfl rfl rfl (by simp [h.pins]) (by simp [h.upcoming])
  | nop | rsvd =>
    cases h₁
    cases h₂
    exact h
  | init =>
    cases h₁
    cases h₂
    exact (h.setH fun _ _ _ => rfl).setDvalid false
  | next _ =>
    cases h₁
    cases h₂
    exact agree_after_next h
  | round _ =>
    cases h₁
    cases h₂
    exact agree_after_round h
  | hacc _ =>
    cases h₁
    cases h₂
    exact agree_after_hacc h

end Sys2Proof.Machine
end

section
/-! PROOFS. The ports, the registers each operation writes, and single operations. -/

namespace Sys2Proof.Machine

/-- R26: word `k` of the eight joined, `H[0]` being the most significant. -/
theorem extractLsb'_joinWords (H : Vector Word 8) (k : Nat) (h : k < 8) :
    (joinWords H).extractLsb' (224 - 32 * k) 32 = H[k] := by
  unfold joinWords
  interval_cases k <;>
    simp (disch := decide) only [BitVec.extractLsb'_append_eq_of_le, BitVec.extractLsb'_append_eq_of_add_le,
      BitVec.extractLsb'_eq_self, Nat.reduceMul, Nat.reduceSub]

/-- Settles O24: the digest by `extractLsb'_joinWords`, the other ports by what they are. -/
theorem outputPorts : Obligations.OutputPorts := fun s =>
  ⟨by simp [State.ready], rfl, rfl, extractLsb'_joinWords s.H⟩

/-- Settles O27: the fetched operation has the same meaning, and reads no pins. -/
theorem unsampledPortsDoNotMatter : Obligations.UnsampledPortsDoNotMatter := by
  intro s p hr hc hb
  obtain ⟨u, hu⟩ := exec_total s s.fetch
  obtain ⟨-, hup⟩ := exec_keeps_inputs s hu
  have hu' : exec (s.setPins p s.upcoming).fetch (s.setPins p s.upcoming) = .next (u.setPins p s.upcoming) :=
    (exec_fetch_setPins s p s.upcoming _ hr hc hb).trans (exec_setPins s p s.upcoming hu)
  refine ⟨_, _, step_of_exec s rfl hu, step_of_exec _ rfl hu', ?_⟩
  rw [advancePins_eq, advancePins_eq, hup]
  rfl

/-- Settles O28: by the cases of a step; a register not among those written is read back unchanged. -/
theorem onlyNamedOperationsWrite : Obligations.OnlyNamedOperationsWrite := by
  intro s t h
  obtain ⟨-, hf, rfl⟩ | ⟨-, -, -, rfl⟩ | ⟨-, -, -, hf, rfl⟩ | ⟨-, -, -, hf, rfl⟩ | ⟨-, -, hf, u, hu, rfl⟩ |
    ⟨-, -, hf, rfl⟩ | ⟨-, -, hf, rfl⟩ := step_cases s h
  · simp [hf, Instr.mnemonic]
  · simp
  · simp [hf, Instr.mnemonic]
  · simp [hf, Instr.mnemonic]
  · obtain ⟨w, n, hw⟩ := execWexp_eq_setW s
    cases hu.symm.trans hw
    simp [hf, Instr.mnemonic]
  · simp [hf, Instr.mnemonic]
  · simp [hf, Instr.mnemonic]

/-- Settles O29: the ports read the state that `step_reset` gives. -/
theorem resetStepFromAnyState : Obligations.ResetStepFromAnyState := fun s hr =>
  ⟨_, step_reset s hr, by simp, by simp, by simp, by simp [State.ready], by simp [State.digestValid]⟩

/-- Settles O15: below 16 the index is not the last, so that `t` just moves on. -/
theorem wexpBelowSixteenRuns : Obligations.WexpBelowSixteenRuns := by
  rintro s cmd _ h rfl
  have hl : s.t ≠ 63#6 := fun he => by simp [he] at h
  refine (execWexp_of_lt s h).trans ?_
  exact congrArg Host.Outcome.next (advance_more _ _ hl)

end Sys2Proof.Machine
end

section
/-! PROOFS. The tables against their formulas (R34, R35). -/

namespace Sys2Proof.Machine

/-- The 64 primes below 312, in order; `filter_prime_range` says that they are. -/
def firstPrimes : List Nat :=
  [2, 3, 5, 7, 11, 13, 17, 19, 23, 29, 31, 37, 41, 43, 47, 53, 59, 61, 67, 71, 73, 79, 83, 89, 97, 101, 103,
   107, 109, 113, 127, 131, 137, 139, 149, 151, 157, 163, 167, 173, 179, 181, 191, 193, 197, 199, 211, 223,
   227, 229, 233, 239, 241, 251, 257, 263, 269, 271, 277, 281, 283, 293, 307, 311]

/-- Trial division by the numbers below `b` decides primality below `b * b`. -/
theorem prime_iff_no_divisor_below {b n : Nat} (h : n < b * b) :
    n.Prime ↔ 2 ≤ n ∧ ∀ m < b, 2 ≤ m ∧ m < n → ¬ m ∣ n := by
  constructor
  · intro hp
    obtain ⟨h2, hd⟩ := Nat.prime_def_lt'.mp hp
    exact ⟨h2, fun m _ hm => hd m hm.1 hm.2⟩
  · rintro ⟨h2, hd⟩
    refine Nat.prime_def_le_sqrt.mpr ⟨h2, fun m hm hs => hd m ?_ ⟨hm, ?_⟩⟩
    · exact hs.trans_lt (Nat.sqrt_lt.mpr h)
    · exact hs.trans_lt (Nat.sqrt_lt_self h2)

theorem filter_prime_range : (List.range 312).filter Nat.Prime = firstPrimes := by
  have trial : ∀ n : Nat, n ∈ List.range 312 →
      decide n.Prime = decide (2 ≤ n ∧ ∀ m : Nat, m < 18 → 2 ≤ m ∧ m < n → ¬ m ∣ n) := fun n hn =>
    decide_eq_decide.mpr (prime_iff_no_divisor_below (b := 18) (by have := List.mem_range.mp hn; omega))
  rw [List.filter_congr trial]
  decide +kernel

/-- In the list of the numbers below `n` that have a property, entry `i` has `i` of them below it. -/
theorem count_getElem_filter_range (p : Nat → Prop) [DecidablePred p] (n i : Nat)
    (h : i < ((List.range n).filter p).length) : Nat.count p ((List.range n).filter p)[i] = i := by
  induction n with
  | zero => simp at h
  | succ n ih =>
    simp only [List.range_succ, List.filter_append] at h ⊢
    by_cases hi : i < ((List.range n).filter p).length
    · rw [List.getElem_append_left hi, ih hi]
    · have hn : p n := by
        by_contra hn
        simp only [hn, decide_false, List.filter_cons_of_neg, List.filter_nil, List.append_nil,
          Bool.false_eq_true, not_false_eq_true] at h
        exact hi h
      have hlast : i = ((List.range n).filter p).length := by
        simp only [hn, decide_true, List.filter_cons_of_pos, List.filter_nil, List.length_append,
          List.length_singleton] at h
        omega
      subst hlast
      simp [hn, Nat.count, List.countP_eq_length_filter]

theorem prime_firstPrimes {i : Nat} (h : i < firstPrimes.length) :
    firstPrimes[i].Prime ∧ Nat.count Nat.Prime firstPrimes[i] = i := by
  simp only [← filter_prime_range] at h ⊢
  have hmem := List.getElem_mem h
  exact ⟨by simpa using (List.mem_filter.mp hmem).2, count_getElem_filter_range _ _ _ h⟩

/-- Both tables have the form of R34 and R35: the fraction of the `e`-th root of the prime with `i` primes
below it, to 32 bits. It is enough to find the whole part `q` of the root. -/
theorem exists_prime_of_root {i e : Nat} {w : Word} (h : i < firstPrimes.length)
    (hq : ∃ q, (2 ^ 32 * q + w.toNat) ^ e ≤ firstPrimes[i] * 2 ^ (32 * e) ∧
      firstPrimes[i] * 2 ^ (32 * e) < (2 ^ 32 * q + w.toNat + 1) ^ e) :
    ∃ p r : Nat, p.Prime ∧ Nat.count Nat.Prime p = i ∧
      r ^ e ≤ p * 2 ^ (32 * e) ∧ p * 2 ^ (32 * e) < (r + 1) ^ e ∧ w.toNat = r % 2 ^ 32 := by
  obtain ⟨q, hle, hlt⟩ := hq
  obtain ⟨hp, hc⟩ := prime_firstPrimes h
  exact ⟨_, _, hp, hc, hle, hlt, by rw [Nat.mul_add_mod, Nat.mod_eq_of_lt w.isLt]⟩

/-- Settles O22, by the cube of each entry with the whole part of its root before it. -/
theorem roundConstantsFromPrimes : Obligations.RoundConstantsFromPrimes := by
  have roots : ∀ i : Fin 64, ∃ q < 7, (2 ^ 32 * q + K[i].toNat) ^ 3 ≤ firstPrimes[i] * 2 ^ (32 * 3) ∧
      firstPrimes[i] * 2 ^ (32 * 3) < (2 ^ 32 * q + K[i].toNat + 1) ^ 3 := by decide +kernel
  exact fun i h => exists_prime_of_root (e := 3) h ((roots ⟨i, h⟩).imp fun _ hq => hq.2)

/-- Settles O23, by the square of each entry with the whole part of its root before it. -/
theorem initialValueFromPrimes : Obligations.InitialValueFromPrimes := by
  have roots : ∀ k : Fin 8, ∃ q < 5, (2 ^ 32 * q + IV[k].toNat) ^ 2 ≤ firstPrimes[k] * 2 ^ (32 * 2) ∧
      firstPrimes[k] * 2 ^ (32 * 2) < (2 ^ 32 * q + IV[k].toNat + 1) ^ 2 := by decide +kernel
  exact fun k h =>
    exists_prime_of_root (e := 2) (h.trans (by decide)) ((roots ⟨k, h⟩).imp fun _ hq => hq.2)

end Sys2Proof.Machine
end

section
/-! PROOFS. The encoding of 30_encoding.md: the decoder on a selector (R71, R80), then the two byte forms (log 6),
said once by the shape of the bytes. -/

namespace Sys2Proof

/-! ### The decoder on a selector -/

/-- The chain of tests of R80, on the three fields of the selector. -/
theorem decode_selector (reset : Bool) (phase cmd : BitVec 2) (blk : Block) :
    decode (selector reset phase cmd) blk =
      if reset = true then .reset phase cmd
      else if phase = 0b01 then .wexp cmd
      else if phase = 0b10 then .round cmd
      else if phase = 0b11 then .hacc cmd
      else if cmd = 0b00 then .nop
      else if cmd = 0b01 then .init
      else if cmd = 0b10 then .next blk
      else .rsvd := by
  simp [decode]

@[simp] theorem decode_next (blk : Block) : decode 0b00010#5 blk = .next blk := rfl

/-- No operation but NEXT looks at the block port. -/
theorem decode_eq_of_ne_next {sel : BitVec 5} (h : sel ≠ 0b00010#5) (blk blk' : Block) :
    decode sel blk = decode sel blk' := by
  have onlyNext : sel.getLsbD 4 ≠ true → selPhase sel ≠ 0b01 → selPhase sel ≠ 0b10 → selPhase sel ≠ 0b11 →
      selCmd sel ≠ 0b10 := by
    revert sel
    decide
  unfold decode
  split_ifs with hr h1 h2 h3 h4 h5 h6
  any_goals rfl
  exact absurd h6 (onlyNext hr h1 h2 h3)

theorem mnemonic_decode (sel : BitVec 5) (blk : Block) : (decode sel blk).mnemonic = (decode sel 0).mnemonic := by
  by_cases h : sel = 0b00010#5
  · rw [h]
    rfl
  · rw [decode_eq_of_ne_next h blk 0]

/-- The selector of an instruction decodes to it, if for NEXT its block is on the port. -/
theorem decode_encodeSelector (i : Instr) (blk : Block) (h : ∀ b, i = .next b → blk = b) :
    decode (encodeSelector i) blk = i := by
  cases i with
  | next b =>
    rw [h b rfl]
    exact decode_next b
  | nop | init | rsvd => rfl
  | reset phase cmd => exact decode_selector true phase cmd blk
  | wexp cmd => exact decode_selector false 0b01 cmd blk
  | round cmd => exact decode_selector false 0b10 cmd blk
  | hacc cmd => exact decode_selector false 0b11 cmd blk

/-! ### Bytes -/

/-- Every byte is a selector or has one of its bits 7 to 5 set. -/
theorem byte_cases (b : Byte) : 32 ≤ b.toNat ∨ ∃ sel : BitVec 5, b = sel.setWidth 8 := by
  refine (le_or_gt 32 b.toNat).imp_right fun h => ⟨b.setWidth 5, ?_⟩
  apply BitVec.eq_of_toNat_eq
  simp only [BitVec.toNat_setWidth]
  omega

@[simp] theorem setWidth_setWidth_selector (sel : BitVec 5) : (sel.setWidth 8).setWidth 5 = sel := by
  revert sel; decide

theorem toNat_setWidth_selector_lt (sel : BitVec 5) : ¬ 32 ≤ (sel.setWidth 8).toNat := by
  revert sel; decide

theorem decodeBytes_notASelector {b : Byte} (h : 32 ≤ b.toNat) (rest : List Byte) :
    decodeBytes (b :: rest) = .error .notASelector := by
  rw [decodeBytes, if_pos h]

theorem decodeBytes_of_ne_next {sel : BitVec 5} (h : sel ≠ 0b00010#5) (rest : List Byte) :
    decodeBytes (sel.setWidth 8 :: rest) = .ok (decode sel 0, rest) := by
  rw [decodeBytes, if_neg (toNat_setWidth_selector_lt sel), setWidth_setWidth_selector, if_neg h]

theorem decodeBytes_shortBlock {rest : List Byte} (h : rest.length < 64) :
    decodeBytes (0b00010#8 :: rest) = .error .shortBlock :=
  if_pos h

theorem decodeBytes_block {bytes : List Byte} (hl : bytes.length = 64) (rest : List Byte) :
    decodeBytes (0b00010#8 :: (bytes ++ rest)) = .ok (.next (blockOfBytes bytes), rest) := by
  have hlt : ¬ (bytes ++ rest).length < 64 := by simp [hl]
  refine (if_neg hlt).trans ?_
  rw [List.take_left' hl, List.drop_left' hl]
  rfl

@[simp] theorem encode_next (blk : Block) : encode (.next blk) = 0b00010#8 :: bytesOfBlock blk := rfl

theorem encodeSelector_ne_next {i : Instr} (h : ∀ blk, i ≠ .next blk) : encodeSelector i ≠ 0b00010#5 := by
  cases i with
  | next blk => exact absurd rfl (h blk)
  | nop | init | rsvd => decide
  | reset phase cmd => clear h; revert phase cmd; decide
  | wexp cmd | round cmd | hacc cmd => clear h; revert cmd; decide

/-- But for NEXT an instruction is one byte. -/
theorem encode_of_ne_next {i : Instr} (h : ∀ blk, i ≠ .next blk) : encode i = [(encodeSelector i).setWidth 8] := by
  cases i with
  | next blk => exact absurd rfl (h blk)
  | reset _ _ | nop | init | rsvd | wexp _ | round _ | hacc _ => rfl

theorem encode_decode_of_ne_next {sel : BitVec 5} (h : sel ≠ 0b00010#5) :
    encode (decode sel 0) = [sel.setWidth 8] := by
  revert sel; decide

/-- What `decodeBytes` can answer: one of the three refusals, or an instruction whose encoding the bytes begin
with. -/
theorem decodeBytes_cases (bytes : List Byte) :
    (bytes = [] ∧ decodeBytes bytes = .error .noSelector) ∨
    (∃ b rest, bytes = b :: rest ∧ 32 ≤ b.toNat ∧ decodeBytes bytes = .error .notASelector) ∨
    (∃ rest, bytes = 0b00010#8 :: rest ∧ rest.length < 64 ∧ decodeBytes bytes = .error .shortBlock) ∨
    ∃ i rest, bytes = encode i ++ rest ∧ decodeBytes bytes = .ok (i, rest) := by
  rcases bytes with _ | ⟨b, tail⟩
  · exact .inl ⟨rfl, rfl⟩
  obtain h32 | ⟨sel, rfl⟩ := byte_cases b
  · exact .inr (.inl ⟨b, tail, rfl, h32, decodeBytes_notASelector h32 tail⟩)
  by_cases hsel : sel = 0b00010#5
  · subst hsel
    by_cases hl : tail.length < 64
    · exact .inr (.inr (.inl ⟨tail, rfl, hl, decodeBytes_shortBlock hl⟩))
    · have hl64 : (tail.take 64).length = 64 := by simp; omega
      have hd := decodeBytes_block hl64 (tail.drop 64)
      rw [List.take_append_drop] at hd
      refine .inr (.inr (.inr ⟨_, _, ?_, hd⟩))
      rw [encode_next, bytesOfBlock_blockOfBytes _ hl64, List.cons_append, List.take_append_drop]
      rfl
  · refine .inr (.inr (.inr ⟨_, tail, ?_, decodeBytes_of_ne_next hsel tail⟩))
    rw [encode_decode_of_ne_next hsel]
    rfl

/-- Settles O5: NEXT by the 64 bytes of its block, any other instruction by its one byte. -/
theorem decodeOfEncode : Obligations.DecodeOfEncode := by
  intro i rest _
  by_cases h : ∃ blk, i = .next blk
  · obtain ⟨blk, rfl⟩ := h
    rw [encode_next, List.cons_append, decodeBytes_block (length_bytesOfBlock blk), blockOfBytes_bytesOfBlock]
  · have hne : ∀ blk, i ≠ .next blk := not_exists.mp h
    rw [encode_of_ne_next hne, List.singleton_append, decodeBytes_of_ne_next (encodeSelector_ne_next hne),
      decode_encodeSelector i 0 fun b hb => absurd hb (hne b)]

/-- Settles O6: the last case of `decodeBytes_cases`, the others being refusals. -/
theorem encodeOfDecode : Obligations.EncodeOfDecode := by
  intro bytes i rest h
  obtain ⟨-, he⟩ | ⟨_, _, -, -, he⟩ | ⟨_, -, -, he⟩ | ⟨_, _, hb, he⟩ := decodeBytes_cases bytes
  · exact nomatch h.symm.trans he
  · exact nomatch h.symm.trans he
  · exact nomatch h.symm.trans he
  · cases h.symm.trans he
    exact hb

/-- Settles O7: the refusals are the first three cases of `decodeBytes_cases`. -/
theorem decodeRefusals : Obligations.DecodeRefusals := by
  intro bytes e
  constructor
  · intro h
    obtain ⟨hb, he⟩ | ⟨b, rest, hb, h32, he⟩ | ⟨rest, hb, hl, he⟩ | ⟨_, _, -, he⟩ := decodeBytes_cases bytes
    · cases h.symm.trans he
      exact .inl ⟨hb, rfl⟩
    · cases h.symm.trans he
      exact .inr (.inl ⟨b, rest, hb, h32, rfl⟩)
    · cases h.symm.trans he
      exact .inr (.inr ⟨rest, hb, hl, rfl⟩)
    · exact nomatch h.symm.trans he
  · rintro (⟨rfl, rfl⟩ | ⟨b, rest, rfl, h32, rfl⟩ | ⟨rest, rfl, hl, rfl⟩)
    · rfl
    · exact decodeBytes_notASelector h32 rest
    · exact decodeBytes_shortBlock hl

/-- Settles O1: the block takes no part in the choice of the row, and the 32 selectors are gone through. -/
theorem selectorMatchesOneRow : Obligations.SelectorMatchesOneRow := by
  intro sel blk
  rw [mnemonic_decode]
  revert sel
  decide +kernel

/-- Settles O8, by running the decoder on each word. -/
theorem specWordsDecode : Obligations.SpecWordsDecode := by
  unfold Obligations.SpecWordsDecode
  decide +kernel

end Sys2Proof
end

section
/-! PROOFS. The operation a step performs, from the pins, from a placed table word and from a trace line. -/

namespace Sys2Proof.Machine

variable (s : State)

/-- An instruction whose bytes are driven is fetched: NEXT finds its block on the port. -/
theorem fetch_driveBytes_encode (i : Instr) (rest : List Byte) : (s.driveBytes (encode i ++ rest)).fetch = i := by
  have fetched : ∀ bytes, (s.driveBytes bytes).fetch =
      decode ((bytes.headD 0).setWidth 5) (blockOfBytes ((bytes.drop 1).take 64)) := fun bytes => by
    simp only [State.driveBytes, State.fetch, State.selector, State.setPins_pins, State.setPins_phase,
      State.setControl_phase, code_phaseOfCode, selector_fields]
  rw [fetched]
  by_cases h : ∃ blk, i = .next blk
  · obtain ⟨blk, rfl⟩ := h
    change decode 0b00010#5 (blockOfBytes ((bytesOfBlock blk ++ rest).take 64)) = .next blk
    rw [List.take_left' (length_bytesOfBlock blk), blockOfBytes_bytesOfBlock, decode_next]
  · have hne : ∀ blk, i ≠ .next blk := not_exists.mp h
    rw [encode_of_ne_next hne, List.singleton_append, List.headD_cons, setWidth_setWidth_selector]
    exact decode_encodeSelector i _ fun b hb => absurd hb (hne b)

/-- Settles O4: a table word that decodes is the encoding of its instruction. -/
theorem placedTableWordIsFetched : Obligations.PlacedTableWordIsFetched := by
  intro s nbits w i h
  refine ⟨?_, _, _, rfl⟩
  unfold decodeTableWord at h
  split at h
  · next rest hd =>
    cases h
    rw [State.withFetchWord, encodeOfDecode _ _ _ hd]
    exact fetch_driveBytes_encode s i rest
  · exact nomatch h

/-- A step is the fetched operation and then the model's own input fields moved on (log 3). -/
theorem step_of_exec_fields {t : State} (h : exec s.fetch s = .next t) :
    step s = .next { t with pins := t.upcoming.headD t.pins, upcoming := t.upcoming.tail } :=
  (step_of_exec s rfl h).trans (congrArg Host.Outcome.next (advancePins_eq t))

/-- Settles O2, by `decode_selector` and `step_of_exec`. -/
theorem stepPerformsDecodedOperation : Obligations.StepPerformsDecodedOperation :=
  ⟨decode_selector, fun s _ h => step_of_exec_fields s h⟩

/-- Settles O3: the selector of an instruction decodes to it, and every operation answers a next state. -/
theorem stepRunsEncodedInstruction : Obligations.StepRunsEncodedInstruction := by
  intro s i _ hs hb
  have hf : s.fetch = i := by
    rw [State.fetch, hs]
    exact decode_encodeSelector i _ hb
  obtain ⟨t, ht⟩ := exec_total s i
  refine ⟨hf, ?_⟩
  rw [ht]
  exact step_of_exec_fields s (hf ▸ ht)

/-! ### Trace lines (R81) -/

/-- Every line but RESET drives no reset. -/
theorem reset_of_drives {c : HostCommand} {p : Pins} (h : drives c p = true) (hc : c ≠ .reset) : p.reset = false := by
  cases c with
  | reset => exact absurd rfl hc
  | nop | init | next _ | rsvd => simp_all [drives]

theorem inputWord_of_cmd {p : Pins} {cmd : BitVec 2} (hr : p.reset = false) (hc : p.cmd = cmd) :
    inputWord p = 0#1 ++ cmd := by
  rw [inputWord, hr, hc]
  rfl

/-- In an idle core the selector is the command code. -/
theorem fetch_of_idle_cmd {cmd : BitVec 2} (hr : s.pins.reset = false) (hc : s.pins.cmd = cmd) (hp : s.phase = .idle) :
    s.fetch = decode (selector false 0b00 cmd) s.pins.block := by
  rw [State.fetch, State.selector, hr, hc, hp]
  rfl

/-- Settles O52: by what each line drives, and `fetch` by the phase. -/
theorem traceLinesSelect : Obligations.TraceLinesSelect := by
  intro s c h
  refine ⟨?_, ?_, ?_, ?_, ?_, fun hc => ?_⟩
  · rintro rfl
    have hr : s.pins.reset = true := h
    refine ⟨?_, by rw [fetch_of_reset s hr]; rfl⟩
    rw [inputWord, hr]
    generalize s.pins.cmd = cmd
    revert cmd
    decide
  · rintro rfl
    obtain ⟨hr, hc⟩ : s.pins.reset = false ∧ s.pins.cmd = 0b00 := by simpa [drives] using h
    exact ⟨inputWord_of_cmd hr hc, fetch_of_idle_cmd s hr hc⟩
  · rintro rfl
    obtain ⟨hr, hc⟩ : s.pins.reset = false ∧ s.pins.cmd = 0b01 := by simpa [drives] using h
    exact ⟨inputWord_of_cmd hr hc, fetch_of_idle_cmd s hr hc⟩
  · rintro blk rfl
    obtain ⟨⟨hr, hc⟩, hb⟩ : (s.pins.reset = false ∧ s.pins.cmd = 0b10) ∧ s.pins.block = blk := by
      simpa [drives] using h
    exact ⟨inputWord_of_cmd hr hc, fun hp => hb ▸ fetch_of_idle_cmd s hr hc hp⟩
  · rintro rfl
    obtain ⟨hr, hc⟩ : s.pins.reset = false ∧ s.pins.cmd = 0b11 := by simpa [drives] using h
    exact ⟨inputWord_of_cmd hr hc, fetch_of_idle_cmd s hr hc⟩
  · have hr := reset_of_drives h hc
    exact ⟨fetch_of_expand s hr, fetch_of_compress s hr, fetch_of_update s hr⟩

end Sys2Proof.Machine
end

section
/-! PROOFS. The bytes of a block: as the words NEXT loads (R74), and as the digits of a trace line (R81). -/

namespace Sys2Proof.Machine

/-- R74: a word of a block is its four bytes, most significant first. -/
theorem blockWord_eq_bytes (blk : Block) {i : Nat} (h : i < 16) :
    blockWord blk i =
      blockByte blk (4 * i) ++ blockByte blk (4 * i + 1) ++ blockByte blk (4 * i + 2) ++ blockByte blk (4 * i + 3) := by
  unfold blockByte blockWord
  rw [BitVec.extractLsb'_append_extractLsb'_eq_extractLsb' (by omega),
    BitVec.extractLsb'_append_extractLsb'_eq_extractLsb' (by omega),
    BitVec.extractLsb'_append_extractLsb'_eq_extractLsb' (by omega),
    show 504 - 8 * (4 * i + 3) = 480 - 32 * i by omega]

/-- Settles O18: NEXT loads `blockWord`, which is four bytes. -/
theorem blockWordsAreBigEndian : Obligations.BlockWordsAreBigEndian := by
  intro s blk t h i hi
  cases h
  have hW : (wload blk s.W)[i] = blockWord blk i := by rw [wload_getElem, if_pos hi]
  exact ⟨hW, hW.trans (blockWord_eq_bytes blk hi)⟩

/-! ### Hexadecimal digits -/

/-- The characters read as digits: those of R174, and the capitals (log 19). -/
def hexDigitChars : List Char := hexDigits ++ ['A', 'B', 'C', 'D', 'E', 'F']

theorem isHexDigit_iff_mem (c : Char) : isHexDigit c = true ↔ c ∈ hexDigitChars := by
  have ascii : ∀ n < 128, isHexDigit (Char.ofNat n) = true → Char.ofNat n ∈ hexDigitChars := by decide +kernel
  constructor
  · intro h
    have hlt : c.toNat < 128 := by
      simp only [isHexDigit, Bool.or_eq_true, Bool.and_eq_true, decide_eq_true_eq, Char.le_def,
        UInt32.le_iff_toNat_le] at h
      change c.val.toNat < 128
      obtain (⟨-, hc⟩ | ⟨-, hc⟩) | ⟨-, hc⟩ := h <;> exact hc.trans_lt (by decide)
    rw [← Char.ofNat_toNat c] at h ⊢
    exact ascii _ hlt h
  · have digits : hexDigitChars.all isHexDigit = true := by decide
    exact List.all_eq_true.mp digits c

theorem hexValue_lt {c : Char} (h : c ∈ hexDigitChars) : hexValue c < 16 := by
  have digits : (hexDigitChars.all fun c => hexValue c < 16) = true := by decide
  exact of_decide_eq_true (List.all_eq_true.mp digits c h)

/-- The number that digits write after those already read into `acc`, most significant first; `blockOfDigits` is
this number from 0 on. -/
def hexNumberFrom (acc : Nat) (ds : List Char) : Nat := ds.foldl (fun acc c => 16 * acc + hexValue c) acc

theorem blockOfDigits_eq (digits : List Char) :
    blockOfDigits digits = BitVec.ofNat 512 (hexNumberFrom 0 (ungroup digits)) := rfl

theorem hexNumberFrom_cons (acc : Nat) (c : Char) (ds : List Char) :
    hexNumberFrom acc (c :: ds) = hexNumberFrom (16 * acc + hexValue c) ds := rfl

theorem hexNumberFrom_append (acc : Nat) (ds ds' : List Char) :
    hexNumberFrom acc (ds ++ ds') = hexNumberFrom (hexNumberFrom acc ds) ds' :=
  List.foldl_append

/-- What was already read stands above the digits still to read. -/
theorem hexNumberFrom_div (acc : Nat) {ds : List Char} (h : ∀ c ∈ ds, c ∈ hexDigitChars) :
    hexNumberFrom acc ds / 16 ^ ds.length = acc := by
  induction ds generalizing acc with
  | nil => simp [hexNumberFrom]
  | cons c cs ih =>
    have hc := hexValue_lt (h c (by simp))
    rw [hexNumberFrom_cons, List.length_cons, Nat.pow_succ, ← Nat.div_div_eq_div_mul,
      ih _ fun c' hc' => h c' (List.mem_cons_of_mem c hc')]
    omega

/-- Byte `j` of the block that 128 digits write has digits `2j` and `2j + 1`. -/
theorem blockByte_hexNumber {ds : List Char} (hl : ds.length = 128) (hd : ∀ c ∈ ds, c ∈ hexDigitChars) {j : Nat}
    (hj : j < 64) :
    (blockByte (BitVec.ofNat 512 (hexNumberFrom 0 ds)) j).toNat = 16 * hexValue ds[2 * j] + hexValue ds[2 * j + 1] := by
  have hfits : hexNumberFrom 0 ds < 2 ^ 512 := by
    have h0 := hexNumberFrom_div 0 hd
    rw [hl, show (16 : Nat) ^ 128 = 2 ^ 512 from (Nat.pow_mul 2 4 128).symm] at h0
    exact (Nat.div_eq_zero_iff_lt (by positivity)).mp h0
  obtain ⟨before, hsplit⟩ : ∃ before, hexNumberFrom 0 ds =
      hexNumberFrom (16 * (16 * before + hexValue ds[2 * j]) + hexValue ds[2 * j + 1]) (ds.drop (2 * j + 2)) := by
    refine ⟨hexNumberFrom 0 (ds.take (2 * j)), ?_⟩
    rw [← hexNumberFrom_cons, ← hexNumberFrom_cons, ← List.drop_eq_getElem_cons, ← List.drop_eq_getElem_cons,
      ← hexNumberFrom_append, List.take_append_drop]
  have hdiv : hexNumberFrom 0 ds / 2 ^ (504 - 8 * j) =
      16 * (16 * before + hexValue ds[2 * j]) + hexValue ds[2 * j + 1] := by
    have hlen : (ds.drop (2 * j + 2)).length = 126 - 2 * j := by rw [List.length_drop]; omega
    rw [show 504 - 8 * j = 4 * (126 - 2 * j) by omega, Nat.pow_mul, ← hlen, hsplit]
    exact hexNumberFrom_div _ fun c hc => hd c (List.mem_of_mem_drop hc)
  have hhi := hexValue_lt (hd ds[2 * j] (List.getElem_mem _))
  have hlo := hexValue_lt (hd ds[2 * j + 1] (List.getElem_mem _))
  rw [blockByte_toNat, BitVec.toNat_ofNat, Nat.mod_eq_of_lt hfits, hdiv]
  omega

theorem wellFormed_next_iff (digits : List Char) : (TraceLine.next digits).wellFormed = true ↔
    (ungroup digits).length = 128 ∧ ∀ c ∈ ungroup digits, c ∈ hexDigitChars := by
  simp [TraceLine.wellFormed, isHexDigit_iff_mem]

/-- Settles O53: the line is read as `blockOfDigits`, whose bytes are `blockByte_hexNumber`. -/
theorem nextLineDigits : Obligations.NextLineDigits := by
  refine ⟨by decide, ?_⟩
  rintro digits _ rfl
  have hu : digits.filter (fun c => c != ' ' && c != '_') = ungroup digits := by
    simp only [ungroup, Bool.not_or]
    rfl
  rw [hu]
  refine ⟨wellFormed_next_iff digits, fun h => if_neg (by simp [h]), fun h => ⟨_, if_pos h, fun j hj => ?_⟩⟩
  obtain ⟨hl, hd⟩ := (wellFormed_next_iff digits).mp h
  refine ⟨_, _, List.getElem?_eq_getElem (by omega), List.getElem?_eq_getElem (by omega), ?_⟩
  rw [blockOfDigits_eq]
  exact blockByte_hexNumber hl hd hj

end Sys2Proof.Machine
end

section
/-! PROOFS. The block transaction (R158): what NEXT starts, what each busy step does to it, and its whole run. -/

namespace Sys2Proof.Machine

/-! ### The schedule (R118) -/

theorem expandUpTo_getElem_of_lt (blk : Block) (j : Nat) {i : Nat} (h : i < 64) (hi : i < 16 + j) (hj : j < 48) :
    (expandUpTo blk (j + 1))[i] = (expandUpTo blk j)[i] := by
  rw [expandUpTo_succ blk j (by omega), Vector.getElem_set_ne _ _ (by omega)]

/-- A word once derived is not derived again. -/
theorem expandUpTo_getElem_eq_expand (blk : Block) {i j : Nat} (h : i < 64) (hi : i < 16 + j) (hj : j ≤ 48) :
    (expandUpTo blk j)[i] = (expand blk)[i] := by
  induction hj using Nat.decreasingInduction with
  | self => rfl
  | of_succ j hj ih => rw [← ih (by omega), expandUpTo_getElem_of_lt blk j h hi hj]

theorem expand_getElem_of_lt (blk : Block) {i : Nat} (h : i < 16) : (expand blk)[i] = blockWord blk i := by
  rw [← expandUpTo_getElem_eq_expand blk (j := 0) (by omega) h (by omega), expandUpTo, wload_getElem, if_pos h]

/-- The recurrence of R118. -/
theorem expand_getElem_of_le (blk : Block) {i : Nat} (h16 : 16 ≤ i) (h64 : i < 64) :
    (expand blk)[i] = scheduleWord (expand blk) i h16 h64 := by
  obtain ⟨j, rfl⟩ := Nat.exists_eq_add_of_le h16
  rw [← expandUpTo_getElem_eq_expand blk (j := j + 1) h64 (by omega) (by omega), expandUpTo_succ blk j h64,
    Vector.getElem_set_self]
  exact scheduleWord_congr _ _ _ _ _ fun k hk hlt => expandUpTo_getElem_eq_expand blk hk hlt (by omega)

/-- If the words below `t` are those of the schedule, so are those up to `t` once WEXP has written `W[t]`. -/
theorem set_scheduleWord_getElem {blk : Block} {W : Vector Word 64} {t : Nat} (h16 : 16 ≤ t) (h64 : t < 64)
    (hW : ∀ (i : Nat) (h : i < 64), i < t → W[i] = (expand blk)[i]) (i : Nat) (h : i < 64) (hi : i < t + 1) :
    (W.set t (scheduleWord W t h16 h64) h64)[i] = (expand blk)[i] := by
  rw [Vector.getElem_set]
  split
  · next heq =>
    subst heq
    rw [expand_getElem_of_le blk h16 h64, scheduleWord_congr _ _ _ _ _ hW]
  · exact hW i h (by omega)

/-! ### A transaction in progress -/

/-- The core is somewhere inside the transaction on `blk` that began with hash state `Hin`. -/
structure InTransaction (s : State) (Hin : Vector Word 8) (blk : Block) : Prop where
  busy : s.phase ≠ .idle
  control : ControlInv s
  onBlock : OnBlock s blk
  H : s.H = Hin

/-- What the transaction on `blk` leaves (R158). -/
structure Finished (s : State) (Hin : Vector Word 8) (blk : Block) : Prop where
  phase : s.phase = .idle
  t : s.t = 0
  dvalid : s.dvalid = true
  H : s.H = compress Hin blk
  W : s.W = expand blk
  v : s.v = rounds Hin (expand blk)

section Phases

variable {s : State} {Hin : Vector Word 8} {blk : Block}

theorem inTransaction_of_expand (hp : s.phase = .expand) (hd : s.dvalid = false) (h16 : 16 ≤ s.t.toNat)
    (hH : s.H = Hin) (hv : s.v = Hin) (hW : ∀ (i : Nat) (h : i < 64), i < s.t.toNat → s.W[i] = (expand blk)[i]) :
    InTransaction s Hin blk where
  busy := by simp [hp]
  control := ⟨by simp [hp], fun _ => h16, by simp [hp], fun _ => hd⟩
  onBlock := by simpa only [OnBlock, hp] using ⟨hv.trans hH.symm, hW⟩
  H := hH

theorem inTransaction_of_compress (hp : s.phase = .compress) (hd : s.dvalid = false) (hH : s.H = Hin)
    (hW : s.W = expand blk) (hv : s.v = roundsUpTo Hin (expand blk) s.t.toNat) : InTransaction s Hin blk where
  busy := by simp [hp]
  control := ⟨by simp [hp], by simp [hp], by simp [hp], fun _ => hd⟩
  onBlock := by simpa only [OnBlock, hp, hH] using ⟨hW, hv⟩
  H := hH

theorem inTransaction_of_update (hp : s.phase = .update) (hd : s.dvalid = false) (ht : s.t = 0) (hH : s.H = Hin)
    (hW : s.W = expand blk) (hv : s.v = rounds Hin (expand blk)) : InTransaction s Hin blk where
  busy := by simp [hp]
  control := ⟨by simp [hp], by simp [hp], fun _ => ht, fun _ => hd⟩
  onBlock := by simpa only [OnBlock, hp, hH] using ⟨hW, hv⟩
  H := hH

theorem stepsToReady_of_expand (hp : s.phase = .expand) : s.stepsToReady = (64 - s.t.toNat) + 64 + 1 := by
  simp only [State.stepsToReady, hp]

theorem stepsToReady_of_compress (hp : s.phase = .compress) : s.stepsToReady = (64 - s.t.toNat) + 1 := by
  simp only [State.stepsToReady, hp]

theorem stepsToReady_of_update (hp : s.phase = .update) : s.stepsToReady = 1 := by
  simp only [State.stepsToReady, hp]

theorem stepsToReady_ne_zero (hp : s.phase ≠ .idle) : s.stepsToReady ≠ 0 := by
  unfold State.stepsToReady
  split
  · contradiction
  all_goals omega

/-- An accepted NEXT begins a transaction of 113 more steps. -/
theorem step_begins_transaction (hr : s.pins.reset = false) (hp : s.phase = .idle) (hc : s.pins.cmd = 2) :
    ∃ t, step s = .next t ∧ InTransaction t s.H s.pins.block ∧ t.stepsToReady = 113 := by
  refine ⟨_, step_next s hr hp hc, ?_, ?_⟩
  · refine inTransaction_of_expand (by simp) (by simp) (by simp) (by simp) (by simp) fun i hi h16 => ?_
    have hlt : i < 16 := by simpa using h16
    simp [hlt, expand_getElem_of_lt]
  · rw [stepsToReady_of_expand (by simp)]
    simp

/-- A WEXP step. -/
theorem InTransaction.step_expand (h : InTransaction s Hin blk) (hr : s.pins.reset = false) (hp : s.phase = .expand) :
    ∃ t, step s = .next t ∧ InTransaction t Hin blk ∧ t.stepsToReady + 1 = s.stepsToReady := by
  have h16 := h.control.expand hp
  have hd := h.control.busy h.busy
  obtain ⟨hv, hW⟩ : s.v = s.H ∧ ∀ (i : Nat) (h : i < 64), i < s.t.toNat → s.W[i] = (expand blk)[i] := by
    simpa only [OnBlock, hp] using h.onBlock
  rw [h.H] at hv
  have hnew := set_scheduleWord_getElem h16 s.t.isLt hW
  refine ⟨_, Machine.step_expand s hr hp h16, ?_⟩
  rw [stepsToReady_of_expand hp]
  by_cases hl : s.t = 63#6
  · refine ⟨inTransaction_of_compress ?_ ?_ ?_ (Vector.ext fun i hi => ?_) ?_, ?_⟩
    · simp [advance_phase, hl]
    · simp [hd]
    · simp [h.H]
    · simpa using hnew i hi (by rw [eq_last_iff.mp hl]; omega)
    · simp [advance_t, hl, hv, roundsUpTo]
    · rw [stepsToReady_of_compress (by simp [advance_phase, hl])]
      simp [advance_t, hl]
  · have ht := toNat_succ_of_ne_last hl
    refine ⟨inTransaction_of_expand ?_ ?_ ?_ ?_ ?_ fun i hi hlt => ?_, ?_⟩
    · simp [advance_phase, hl, hp]
    · simp [hd]
    · simpa [advance_t, hl, ht] using Nat.le_succ_of_le h16
    · simp [h.H]
    · simp [hv]
    · simpa using hnew i hi (by simpa [advance_t, hl, ht] using hlt)
    · have hlt := s.t.isLt
      rw [stepsToReady_of_expand (by simp [advance_phase, hl, hp])]
      simp [advance_t, hl, ht]
      omega

/-- A ROUND step. -/
theorem InTransaction.step_compress (h : InTransaction s Hin blk) (hr : s.pins.reset = false)
    (hp : s.phase = .compress) :
    ∃ t, step s = .next t ∧ InTransaction t Hin blk ∧ t.stepsToReady + 1 = s.stepsToReady := by
  have hd := h.control.busy h.busy
  obtain ⟨hW, hv⟩ : s.W = expand blk ∧ s.v = roundsUpTo s.H (expand blk) s.t.toNat := by
    simpa only [OnBlock, hp] using h.onBlock
  have hround : round s.v s.kt s.wt = roundsUpTo Hin (expand blk) (s.t.toNat + 1) := by
    rw [roundsUpTo_succ _ _ _ s.t.isLt, hv, h.H, State.kt, State.wt]
    simp only [hW]
  refine ⟨_, Machine.step_compress s hr hp, ?_⟩
  rw [stepsToReady_of_compress hp]
  by_cases hl : s.t = 63#6
  · refine ⟨inTransaction_of_update ?_ ?_ ?_ ?_ ?_ ?_, ?_⟩
    · simp [advance_phase, hl]
    · simp [hd]
    · simp [advance_t, hl]
    · simp [h.H]
    · simp [hW]
    · simp [hround, hl, rounds]
    · rw [stepsToReady_of_update (by simp [advance_phase, hl])]
      simp [hl]
  · have ht := toNat_succ_of_ne_last hl
    refine ⟨inTransaction_of_compress ?_ ?_ ?_ ?_ ?_, ?_⟩
    · simp [advance_phase, hl, hp]
    · simp [hd]
    · simp [h.H]
    · simp [hW]
    · simp [hround, advance_t, hl, ht]
    · have hlt := s.t.isLt
      rw [stepsToReady_of_compress (by simp [advance_phase, hl, hp])]
      simp [advance_t, hl, ht]
      omega

/-- The HACC step. -/
theorem InTransaction.step_update (h : InTransaction s Hin blk) (hr : s.pins.reset = false) (hp : s.phase = .update) :
    ∃ t, step s = .next t ∧ Finished t Hin blk := by
  obtain ⟨hW, hv⟩ : s.W = expand blk ∧ s.v = rounds s.H (expand blk) := by
    simpa only [OnBlock, hp] using h.onBlock
  rw [h.H] at hv
  refine ⟨_, Machine.step_update s hr hp, ?_, ?_, ?_, ?_, ?_, ?_⟩
  · simp
  · simp [h.control.update hp]
  · simp
  · simp [h.H, hv, compress]
  · simp [hW]
  · simp [hv]

/-- Without reset a transaction runs to its end, `stepsToReady` steps later (R227). -/
theorem InTransaction.run_finishes {n : Nat} (h : InTransaction s Hin blk) (hn : s.stepsToReady = n)
    (hr : ∀ k < n, (s.pinsAt k).reset = false) : ∃ t, run n s = .next t ∧ Finished t Hin blk := by
  induction n generalizing s with
  | zero => exact absurd hn (stepsToReady_ne_zero h.busy)
  | succ n ih =>
    have more : ∀ {t : State}, step s = .next t → InTransaction t Hin blk → t.stepsToReady + 1 = s.stepsToReady →
        ∃ u, run (n + 1) s = .next u ∧ Finished u Hin blk := fun {t} hs ht hm => by
      rw [run_succ_of_step n hs]
      exact ih ht (by omega) fun k hk => by rw [pinsAt_of_step hs]; exact hr (k + 1) (by omega)
    have hr0 : s.pins.reset = false := hr 0 (by omega)
    cases hp : s.phase with
    | idle => exact absurd hp h.busy
    | expand =>
      obtain ⟨t, hs, ht, hm⟩ := h.step_expand hr0 hp
      exact more hs ht hm
    | compress =>
      obtain ⟨t, hs, ht, hm⟩ := h.step_compress hr0 hp
      exact more hs ht hm
    | update =>
      obtain ⟨t, hs, ht⟩ := h.step_update hr0 hp
      obtain rfl : n = 0 := by rw [stepsToReady_of_update hp] at hn; omega
      exact ⟨t, run_succ_of_step 0 hs, ht⟩

/-- The block transaction (R158): NEXT and 113 steps without reset. -/
theorem run_transaction (hr : s.pins.reset = false) (hp : s.phase = .idle) (hc : s.pins.cmd = 2)
    (hb : ∀ k < 113, (s.pinsAt (k + 1)).reset = false) :
    ∃ t, run 114 s = .next t ∧ Finished t s.H s.pins.block := by
  obtain ⟨u, hs, hu, hn⟩ := step_begins_transaction hr hp hc
  rw [run_succ_of_step 113 hs]
  exact hu.run_finishes hn fun k hk => by rw [pinsAt_of_step hs]; exact hb k hk

end Phases

end Sys2Proof.Machine
end

section
/-! PROOFS. What the host drives for a message (R159, R171): patterns in a row, the idle steps, the transactions,
and the whole run. -/

namespace Sys2Proof.Machine

variable {s u t : State} {ps qs : List LinePattern}

/-! ### Patterns in a row -/

theorem follows_cons {p : LinePattern} :
    Follows s (p :: ps) ↔ p.accepts s.pins = true ∧ Follows s.advancePins ps := by
  constructor
  · exact fun h => ⟨h 0 (by simp), fun k hk => h (k + 1) (by simpa using hk)⟩
  · rintro ⟨h0, h⟩ (_ | k) hk
    · exact h0
    · exact h k (by simpa using hk)

theorem follows_replicate {n : Nat} {p : LinePattern} :
    Follows s (List.replicate n p) ↔ ∀ k < n, p.accepts (s.pinsAt k) = true := by
  simp [Follows]

theorem Follows.left (h : Follows s (ps ++ qs)) : Follows s ps := fun k hk => by
  rw [← List.getElem_append_left (bs := qs) hk]
  exact h k (by rw [List.length_append]; omega)

/-- What is left to drive after a run over the first patterns. -/
theorem Follows.right (h : Follows s (ps ++ qs)) (hu : run ps.length s = .next u) : Follows u qs := fun k hk => by
  have hk' := h (ps.length + k) (by simpa using hk)
  simp only [List.getElem_append_right (Nat.le_add_right _ _), Nat.add_sub_cancel_left] at hk'
  rwa [pinsAt_of_run hu]

theorem run_append (hu : run ps.length s = .next u) (ht : run qs.length u = .next t) :
    run (ps ++ qs).length s = .next t := by
  rw [List.length_append, run_add _ _ hu, ht]

/-! ### Patterns a core carries out -/

/-- An idle core that is given nothing to do changes its inputs only (R160). -/
theorem run_idle {n : Nat} (hp : s.phase = .idle) (hf : Follows s (List.replicate n .idle)) :
    ∃ p l, run n s = .next (s.setPins p l) := by
  induction n generalizing s with
  | zero => exact ⟨s.pins, s.upcoming, rfl⟩
  | succ n ih =>
    obtain ⟨h0, hrest⟩ := follows_cons.mp hf
    obtain ⟨hr, hc⟩ : s.pins.reset = false ∧ (s.pins.cmd = 0 ∨ s.pins.cmd = 3) := by
      simpa [LinePattern.accepts] using h0
    rw [run_succ_of_step n (step_idle s hr hp hc)]
    obtain ⟨p, l, hrun⟩ := ih (by simpa using hp) hrest
    refine ⟨p, l, hrun.trans ?_⟩
    rw [advancePins_eq]
    rfl

/-- One transaction, begun after some idle steps. -/
theorem run_blockPatterns {item : Nat × Block} (hp : s.phase = .idle) (hf : Follows s (blockPatterns item)) :
    ∃ t, run (blockPatterns item).length s = .next t ∧ Finished t s.H item.2 := by
  obtain ⟨p, l, hidle⟩ := run_idle hp hf.left
  have hidle' : run (List.replicate item.1 LinePattern.idle).length s = .next (s.setPins p l) := by
    rwa [List.length_replicate]
  obtain ⟨hnext, hbusy⟩ := follows_cons.mp (hf.right hidle')
  obtain ⟨⟨hr, hc⟩, hb⟩ : (p.reset = false ∧ p.cmd = 2) ∧ p.block = item.2 := by
    simpa [LinePattern.accepts] using hnext
  obtain ⟨t, hrun, ht⟩ := run_transaction (s := s.setPins p l) hr hp hc fun k hk => by
    simpa [LinePattern.accepts, pinsAt_succ] using follows_replicate.mp hbusy k hk
  refine ⟨t, run_append hidle' hrun, ?_⟩
  rwa [State.setPins_H, State.setPins_pins, hb] at ht

/-- The transactions of a list of blocks chain (R159). -/
theorem run_transactions {items : List (Nat × Block)} (hp : s.phase = .idle)
    (hf : Follows s (items.flatMap blockPatterns)) :
    ∃ t, run (items.flatMap blockPatterns).length s = .next t ∧ t.phase = .idle ∧
      t.H = hashBlocks s.H (items.map Prod.snd) ∧ (s.dvalid = true ∨ items ≠ [] → t.dvalid = true) := by
  induction items generalizing s with
  | nil => exact ⟨s, rfl, hp, rfl, by simp⟩
  | cons item items ih =>
    rw [List.flatMap_cons] at hf ⊢
    obtain ⟨u, hu, hfin⟩ := run_blockPatterns hp hf.left
    obtain ⟨t, ht, hpt, hH, hd⟩ := ih hfin.phase (hf.right hu)
    rw [hfin.H] at hH
    exact ⟨t, run_append hu ht, hpt, hH, fun _ => hd (.inl hfin.dvalid)⟩

/-- INIT, the transactions, and idle steps after them (R159, R171). -/
theorem run_message {items : List (Nat × Block)} {after : Nat} (hp : s.phase = .idle)
    (hf : Follows s (messagePatterns items after)) :
    ∃ t, run (messagePatterns items after).length s = .next t ∧ t.phase = .idle ∧
      t.H = hashBlocks IV (items.map Prod.snd) ∧ (items ≠ [] → t.dvalid = true) := by
  obtain ⟨hi, hrest⟩ := follows_cons.mp hf
  obtain ⟨hr, hc⟩ : s.pins.reset = false ∧ s.pins.cmd = 1 := by simpa [LinePattern.accepts] using hi
  have hinit := step_init s hr hp hc
  have hrest' : Follows ((s.setH IV).setDvalid false).advancePins
      (items.flatMap blockPatterns ++ List.replicate after .idle) := fun k hk => by
    rw [pinsAt_of_step hinit]
    exact hrest k hk
  obtain ⟨u, hu, hpu, hH, hd⟩ := run_transactions (by simpa using hp) hrest'.left
  obtain ⟨p, l, hidle⟩ := run_idle hpu (hrest'.right hu)
  have hidle' : run (List.replicate after LinePattern.idle).length u = .next (u.setPins p l) := by
    rwa [List.length_replicate]
  exact ⟨_, (run_succ_of_step _ hinit).trans (run_append hu hidle'), hpu, by simpa using hH, fun h => hd (.inr h)⟩

end Sys2Proof.Machine
end

section
/-! PROOFS. The pseudo-operations (R82): the lines of DIGEST, driven, are the patterns of its message. -/

namespace Sys2Proof.Machine

/-! ### The blocks of a padded message -/

theorem length_of_pad {msg padded : List Byte} (h : pad msg = .ok padded) :
    padded.length = 64 * blockCount msg.length := by
  unfold pad at h
  split at h
  · cases h
    simp [be64, padZeros, blockCount]
    omega
  · exact nomatch h

theorem length_segment_of_pad {msg padded : List Byte} (h : pad msg = .ok padded) :
    (segment padded).length = blockCount msg.length := by
  simp [segment, length_of_pad h]

/-! ### Lines and patterns -/

/-- Whatever pins show the line fit the pattern. -/
def Fits (q : LinePattern) (c : HostCommand) : Prop := ∀ p, drives c p = true → q.accepts p = true

theorem fits_init : Fits .init .init := fun _ h => h

theorem fits_next (blk : Block) : Fits (.next blk) (.next blk) := fun _ h => h

theorem fits_noReset : Fits .noReset .nop := fun p h => by
  simpa [LinePattern.accepts] using reset_of_drives h nofun

theorem fits_replicate (n : Nat) : List.Forall₂ Fits (List.replicate n .noReset) (List.replicate n .nop) := by
  induction n with
  | zero => exact .nil
  | succ n ih => exact .cons fits_noReset ih

theorem fits_hashblockLines (blk : Block) : List.Forall₂ Fits (blockPatterns (0, blk)) (hashblockLines blk) :=
  .cons (fits_next blk) (fits_replicate 113)

/-- The lines of DIGEST are a message without idle steps. -/
theorem fits_digestLines (blocks : List Block) :
    List.Forall₂ Fits (messagePatterns (blocks.map (Prod.mk 0)) 0) (digestLines blocks) := by
  rw [messagePatterns, List.replicate_zero, List.append_nil, digestLines]
  refine .cons fits_init ?_
  induction blocks with
  | nil => exact .nil
  | cons b bs ih => exact List.rel_append (fits_hashblockLines b) ih

/-- Pins that show lines that fit patterns follow the patterns, once driven. -/
theorem follows_drive (s : State) {qs : List LinePattern} {lines : List HostCommand} {ps : List Pins}
    (hq : List.Forall₂ Fits qs lines) (hp : List.Forall₂ (fun c p => drives c p = true) lines ps) :
    Follows (s.drive ps) qs := by
  obtain ⟨hlq, hq⟩ := List.forall₂_iff_get.mp hq
  obtain ⟨hlp, hp⟩ := List.forall₂_iff_get.mp hp
  intro k hk
  rw [pinsAt_drive s ps k (by omega)]
  exact hq k hk (by omega) _ (hp k (by omega) (by omega))

theorem length_digestLines (blocks : List Block) : (digestLines blocks).length = 1 + 114 * blocks.length := by
  rw [digestLines, List.length_cons, length_flatMap_of_length _ _ 114 fun b => by simp [hashblockLines]]
  omega

/-- DIGEST, driven from an idle core, leaves the digest on the ports. -/
theorem run_digestLines (s : State) {blocks : List Block} (hb : blocks ≠ []) {ps : List Pins} (hp : s.phase = .idle)
    (hd : List.Forall₂ (fun c p => drives c p = true) (digestLines blocks) ps) :
    ∃ t, run (digestLines blocks).length (s.drive ps) = .next t ∧
      t.outputs = ⟨true, true, joinWords (hashBlocks IV blocks)⟩ := by
  have hfit := fits_digestLines blocks
  obtain ⟨t, hrun, hpt, hH, hv⟩ := run_message (by simpa using hp) (follows_drive s hfit hd)
  rw [hfit.length_eq] at hrun
  have hmap : (blocks.map (Prod.mk 0)).map Prod.snd = blocks := by simp
  rw [hmap] at hH
  refine ⟨t, hrun, ?_⟩
  simp [State.outputs, State.ready, State.digestValid, State.digest, hpt, hH, hv (by simpa using hb)]

/-- The length of `WAIT` after an accepted NEXT. -/
theorem stepsToReady_after_next {s t : State} (hf : s.fetch = .next s.pins.block) (h : step s = .next t) :
    t.stepsToReady = 113 := by
  cases h.symm.trans (step_of_exec s hf rfl)
  rw [stepsToReady_of_expand (by simp)]
  simp

/-- Settles O51: the expansions as they are defined, and DIGEST by `run_digestLines`. -/
theorem pseudoOperations : Obligations.PseudoOperations := by
  refine ⟨fun _ _ => rfl, fun s t hp hf h => ⟨?_, ?_⟩, fun _ _ => rfl, fun s msg padded h => ?_,
    fun s msg lines ps hp hl hd => ?_⟩
  · simp [expandPseudo, State.stepsToReady, hp]
  · rw [expandPseudo, stepsToReady_after_next hf h]
  · rw [expandPseudo, h]
    rfl
  · cases hpad : pad msg with
    | error r => simp [expandPseudo, hpad, Except.map] at hl
    | ok padded =>
      rw [expandPseudo, hpad] at hl
      cases hl
      have hlen := length_segment_of_pad hpad
      have hne : segment padded ≠ [] := by
        rw [← List.length_pos_iff, hlen]
        exact Nat.succ_pos _
      obtain ⟨t, hrun, hout⟩ := run_digestLines s hne hp hd
      refine ⟨by rw [length_digestLines, hlen, blockCount], t, _, hrun, ?_, hout⟩
      rw [sha256, hpad]
      rfl

end Sys2Proof.Machine
end


section
/-! PROOFS. Reset and the host commands (40_commands.md R90 to R94). An operation that writes W is compared
with its record update on a state taken apart into its fields: on a variable `s` the unifier first compares
the two states whole, and so unfolds all 64 words of W. -/

namespace Sys2Proof.Machine

variable (s : State)

/-- The state RESET leaves, register by register (R90, log 1): of `s` it names the input fields and the
free-word counter only. -/
theorem exec_reset_eq (phase cmd : BitVec 2) :
    exec (.reset phase cmd) s = .next
      { phase := .idle, t := 0, dvalid := false, H := freeWords s.freeNext 8, v := freeWords (s.freeNext + 8) 8,
        W := freeWords (s.freeNext + 16) 64, pins := s.pins, upcoming := s.upcoming, freeNext := s.freeNext + 80 } := by
  cases s
  rfl

/-- NEXT as one record update (R93). -/
theorem exec_next_eq (blk : Block) :
    exec (.next blk) s = .next
      { s with W := wload blk s.W, v := s.H, t := 16, phase := .expand, dvalid := false } := by
  cases s
  rfl

/-- Settles O9: the data words are those of `exec_reset_eq`. -/
theorem resetEffect : Obligations.ResetEffect := fun s phase cmd =>
  ⟨_, _, _, _, exec_reset_eq s phase cmd⟩

/-- Settles O10: both halves are read off `exec_reset_eq`, the words by `freeWords_getElem`. -/
theorem resetForgets : Obligations.ResetForgets := by
  intro s s' a b c d
  constructor
  · intro hpins hupcoming hfree
    rw [exec_reset_eq, exec_reset_eq, hpins, hupcoming, hfree]
  · exact ⟨_, exec_reset_eq s a b, rfl,
      fun k hk => ⟨freeWords_getElem _ 8 k hk, freeWords_getElem _ 8 k hk⟩, freeWords_getElem _ 64⟩

/-- Settles O11: neither operation has an assignment. -/
theorem nopAndRsvdChangeNothing : Obligations.NopAndRsvdChangeNothing := fun _ => ⟨rfl, rfl⟩

/-- Settles O12: the two register writes of INIT are the record update of the statement. -/
theorem initEffect : Obligations.InitEffect := fun _ => rfl

/-- Settles O13: the schedule is `wload`, on either side of index 16. -/
theorem nextEffect : Obligations.NextEffect := by
  refine fun s blk => ⟨wload blk s.W, exec_next_eq s blk, fun i hi => ?_, fun i hi h16 => ?_⟩
  · rw [wload_getElem, if_pos hi, blockWord]
  · rw [wload_getElem, if_neg (Nat.not_lt.mpr h16)]

end Sys2Proof.Machine
end

section
/-! PROOFS. Every step keeps the data invariant, and a whole EXPAND phase (R118): both by the transaction in
progress, which a busy core is inside of. -/

namespace Sys2Proof.Machine

variable {s : State} {Hin : Vector Word 8} {blk : Block}

/-! ### The data invariant and the transaction -/

/-- An idle core is on any block. -/
theorem dataInv_of_idle (hp : s.phase = .idle) (ht : s.t = 0) : DataInv s where
  control := ⟨fun _ => ht, by simp [hp], by simp [hp], fun h => absurd hp h⟩
  onBlock := ⟨0, by simp [OnBlock, hp]⟩

theorem InTransaction.dataInv (h : InTransaction s Hin blk) : DataInv s := ⟨h.control, blk, h.onBlock⟩

theorem Finished.dataInv (h : Finished s Hin blk) : DataInv s := dataInv_of_idle h.phase h.t

theorem DataInv.inTransaction (h : DataInv s) (hp : s.phase ≠ .idle) : ∃ blk, InTransaction s s.H blk := by
  obtain ⟨hc, blk, hb⟩ := h
  exact ⟨blk, hp, hc, hb, rfl⟩

/-- Settles O41: a step leaves the core idle at index 0, begins a transaction, carries it on or finishes it. -/
theorem stepKeepsDataInv : Obligations.StepKeepsDataInv := by
  intro s t inv h
  have of_step : ∀ {u : State}, step s = .next u → DataInv u → DataInv t := fun hu hi => by
    cases h.symm.trans hu
    exact hi
  obtain ⟨-, -, rfl⟩ | ⟨-, hp, -, rfl⟩ | ⟨-, hp, -, -, rfl⟩ | ⟨hr, hp, hc, -⟩ | ⟨hr, hp, -⟩ | ⟨hr, hp, -⟩ |
    ⟨hr, hp, -⟩ := step_cases s h
  · exact dataInv_of_idle (by simp) (by simp)
  · exact dataInv_of_idle (by simp [hp]) (by simp [inv.control.idle hp])
  · exact dataInv_of_idle (by simp [hp]) (by simp [inv.control.idle hp])
  · obtain ⟨u, hu, hi, -⟩ := step_begins_transaction hr hp hc
    exact of_step hu hi.dataInv
  · obtain ⟨blk, hb⟩ := inv.inTransaction (by simp [hp])
    obtain ⟨u, hu, hi, -⟩ := hb.step_expand hr hp
    exact of_step hu hi.dataInv
  · obtain ⟨blk, hb⟩ := inv.inTransaction (by simp [hp])
    obtain ⟨u, hu, hi, -⟩ := hb.step_compress hr hp
    exact of_step hu hi.dataInv
  · obtain ⟨blk, hb⟩ := inv.inTransaction (by simp [hp])
    obtain ⟨u, hu, hf⟩ := hb.step_update hr hp
    exact of_step hu hf.dataInv

/-! ### How far a transaction has come, by the steps it still takes -/

/-- Before its last step a transaction goes on. -/
theorem InTransaction.step_continues (h : InTransaction s Hin blk) (hr : s.pins.reset = false)
    (hn : 1 < s.stepsToReady) :
    ∃ t, step s = .next t ∧ InTransaction t Hin blk ∧ t.stepsToReady + 1 = s.stepsToReady := by
  cases hp : s.phase with
  | idle => exact absurd hp h.busy
  | expand => exact h.step_expand hr hp
  | compress => exact h.step_compress hr hp
  | update =>
    rw [stepsToReady_of_update hp] at hn
    exact absurd hn (Nat.lt_irrefl 1)

/-- Without reset a transaction is still in progress any number of steps later, short of its end. -/
theorem InTransaction.run_continues {n : Nat} (h : InTransaction s Hin blk) (hn : n < s.stepsToReady)
    (hr : ∀ k < n, (s.pinsAt k).reset = false) :
    ∃ t, run n s = .next t ∧ InTransaction t Hin blk ∧ t.stepsToReady + n = s.stepsToReady := by
  induction n with
  | zero => exact ⟨s, rfl, h, rfl⟩
  | succ n ih =>
    obtain ⟨u, hu, hi, hsteps⟩ := ih (by omega) fun k hk => hr k (by omega)
    have hru : u.pins.reset = false := by
      rw [← pinsAt_zero u, pinsAt_of_run hu]
      exact hr n (by omega)
    obtain ⟨t, ht, hit, hone⟩ := hi.step_continues hru (by omega)
    exact ⟨t, run_snoc hu ht, hit, by omega⟩

/-- More than 65 steps before its end a transaction is in EXPAND. -/
theorem InTransaction.expand_of_stepsToReady (h : InTransaction s Hin blk) (hn : 65 < s.stepsToReady) :
    s.phase = .expand ∧ s.t.toNat + s.stepsToReady = 129 := by
  have hlt := s.t.isLt
  cases hp : s.phase with
  | idle => exact absurd hp h.busy
  | expand => exact ⟨rfl, by rw [stepsToReady_of_expand hp]; omega⟩
  | compress =>
    rw [stepsToReady_of_compress hp] at hn
    omega
  | update =>
    rw [stepsToReady_of_update hp] at hn
    omega

/-- From 65 to 2 steps before its end a transaction is in COMPRESS. -/
theorem InTransaction.compress_of_stepsToReady (h : InTransaction s Hin blk) (h1 : 1 < s.stepsToReady)
    (hn : s.stepsToReady ≤ 65) : s.phase = .compress ∧ s.t.toNat + s.stepsToReady = 65 := by
  have hlt := s.t.isLt
  cases hp : s.phase with
  | idle => exact absurd hp h.busy
  | expand =>
    rw [stepsToReady_of_expand hp] at hn
    omega
  | compress => exact ⟨rfl, by rw [stepsToReady_of_compress hp]; omega⟩
  | update =>
    rw [stepsToReady_of_update hp] at h1
    exact absurd h1 (Nat.lt_irrefl 1)

/-! ### What W holds -/

/-- In EXPAND the words below `t` are those of the schedule (R118). -/
theorem InTransaction.W_getElem_of_expand (h : InTransaction s Hin blk) (hp : s.phase = .expand) {i : Nat}
    (hi : i < 64) (ht : i < s.t.toNat) : s.W[i] = (expand blk)[i] := by
  have hb := h.onBlock
  simp only [OnBlock, hp] at hb
  exact hb.2 i hi ht

/-- In COMPRESS the schedule is complete (R119). -/
theorem InTransaction.W_of_compress (h : InTransaction s Hin blk) (hp : s.phase = .compress) : s.W = expand blk := by
  have hb := h.onBlock
  simp only [OnBlock, hp] at hb
  exact hb.1

/-- NEXT and `j` steps without reset, short of the end of the transaction. -/
theorem run_into_transaction {j : Nat} (hp : s.phase = .idle) (hc : s.pins.cmd = 2) (hj : j < 113)
    (hr : ∀ k ≤ j, (s.pinsAt k).reset = false) :
    ∃ u, run (j + 1) s = .next u ∧ InTransaction u s.H s.pins.block ∧ u.stepsToReady + j = 113 := by
  obtain ⟨t, hs, ht, hn⟩ := step_begins_transaction (hr 0 (Nat.zero_le j)) hp hc
  rw [run_succ_of_step j hs, ← hn]
  exact ht.run_continues (by omega) fun k hk => by
    rw [pinsAt_of_step hs]
    exact hr (k + 1) hk

/-- Settles O30: the recurrence is `expand_getElem_of_le`; after `j` WEXP steps the transaction has 113 - `j`
steps to go, which gives its phase and index. -/
theorem scheduleExpansion : Obligations.ScheduleExpansion := by
  refine ⟨fun blk i h => expand_getElem_of_lt blk h, fun blk i h16 h64 => expand_getElem_of_le blk h16 h64,
    fun s j hp _ hc hj hpins => ?_⟩
  obtain ⟨u, hu, hi, hsteps⟩ := run_into_transaction hp hc (by omega) hpins
  refine ⟨u, hu, ?_⟩
  by_cases h48 : j = 48
  · obtain ⟨hpu, ht⟩ := hi.compress_of_stepsToReady (by omega) (by omega)
    have hW := hi.W_of_compress hpu
    exact ⟨fun i h _ => by simp only [hW], fun _ => ⟨hW, hpu, BitVec.eq_of_toNat_eq (by simp; omega)⟩⟩
  · obtain ⟨hpu, ht⟩ := hi.expand_of_stepsToReady (by omega)
    exact ⟨fun i h hlt => hi.W_getElem_of_expand hpu h (by omega), fun h => absurd h h48⟩

end Sys2Proof.Machine
end

section
/-! PROOFS. The word functions of the schedule and the round (R110 to R113, R130, R131), and WEXP (R117). -/

namespace Sys2Proof.Machine

/-! ### Rotation and shift -/

/-- For the amounts in use `rotr` is the rotation of the library (R110; log 20 for the others). -/
theorem rotr_eq_rotateRight (x : Word) {n : Nat} (hn : n < 32) : rotr x n = x.rotateRight n := by
  rw [BitVec.rotateRight_def, Nat.mod_eq_of_lt hn]
  rfl

/-- R110, bit by bit. -/
theorem getLsbD_rotr (x : Word) {n i : Nat} (hn : n < 32) (hi : i < 32) :
    (rotr x n).getLsbD i = x.getLsbD ((i + n) % 32) := by
  rw [rotr_eq_rotateRight x hn, BitVec.getLsbD_rotateRight, Nat.mod_eq_of_lt hn]
  by_cases h : i < 32 - n
  · rw [show (i + n) % 32 = n + i by omega]
    simp [h]
  · rw [show (i + n) % 32 = i - (32 - n) by omega]
    simp [h, hi]

theorem toNat_shr (x : Word) (n : Nat) : (shr x n).toNat = x.toNat / 2 ^ n := by
  rw [shr, BitVec.toNat_ushiftRight, Nat.shiftRight_eq_div_pow]

theorem toNat_shl32_sub (x : Word) {n : Nat} (hn : n < 32) :
    (shl32 x (32 - n)).toNat = (x.toNat % 2 ^ n) * 2 ^ (32 - n) := by
  have hpow : 2 ^ 32 = 2 ^ n * 2 ^ (32 - n) := by
    rw [← Nat.pow_add]
    congr 1
    omega
  rw [shl32, BitVec.toNat_shiftLeft, Nat.shiftLeft_eq, hpow, Nat.mul_mod_mul_right]

/-- R110, as a number: the two operands of the `|` have no bit in common, so it is a sum. -/
theorem toNat_rotr (x : Word) {n : Nat} (hn : n < 32) :
    (rotr x n).toNat = x.toNat / 2 ^ n + (x.toNat % 2 ^ n) * 2 ^ (32 - n) := by
  have hlow : x.toNat / 2 ^ n < 2 ^ (32 - n) := by
    apply Nat.div_lt_of_lt_mul
    rw [← Nat.pow_add, Nat.add_sub_of_le hn.le]
    exact x.isLt
  rw [rotr, BitVec.toNat_or, toNat_shr, toNat_shl32_sub x hn, Nat.or_comm, ← Nat.shiftLeft_eq,
    ← Nat.shiftLeft_add_eq_or_of_lt hlow, Nat.add_comm]

/-- Settles O19: the formula is the definition, the rest is said once above. -/
theorem rotationAndShift : Obligations.RotationAndShift := fun x n _ hn =>
  ⟨rfl, fun _ hi => getLsbD_rotr x hn hi, toNat_rotr x hn, toNat_shr x n⟩

/-! ### The sigma functions -/

theorem rotr_xor (x y : Word) {n : Nat} (hn : n < 32) : rotr (x ^^^ y) n = rotr x n ^^^ rotr y n :=
  BitVec.eq_of_getLsbD_eq fun i hi => by
    rw [BitVec.getLsbD_xor, getLsbD_rotr _ hn hi, getLsbD_rotr _ hn hi, getLsbD_rotr _ hn hi, BitVec.getLsbD_xor]

theorem shr_xor (x y : Word) (n : Nat) : shr (x ^^^ y) n = shr x n ^^^ shr y n :=
  BitVec.ushiftRight_xor_distrib x y n

/-- The exclusive or of three linear functions, the third a shift, is linear. -/
theorem small_sigma_xor (x y : Word) {k m n : Nat} (hk : k < 32) (hm : m < 32) :
    rotr (x ^^^ y) k ^^^ rotr (x ^^^ y) m ^^^ shr (x ^^^ y) n =
      (rotr x k ^^^ rotr x m ^^^ shr x n) ^^^ (rotr y k ^^^ rotr y m ^^^ shr y n) := by
  rw [rotr_xor x y hk, rotr_xor x y hm, shr_xor]
  ac_rfl

/-- The exclusive or of three rotations is linear. -/
theorem big_sigma_xor (x y : Word) {k m n : Nat} (hk : k < 32) (hm : m < 32) (hn : n < 32) :
    rotr (x ^^^ y) k ^^^ rotr (x ^^^ y) m ^^^ rotr (x ^^^ y) n =
      (rotr x k ^^^ rotr x m ^^^ rotr x n) ^^^ (rotr y k ^^^ rotr y m ^^^ rotr y n) := by
  rw [rotr_xor x y hk, rotr_xor x y hm, rotr_xor x y hn]
  ac_rfl

/-- Settles O20: linearity from that of rotation and shift; the fixed values are computed. -/
theorem sigmaFunctions : Obligations.SigmaFunctions := by
  intro x y
  refine ⟨rfl, rfl, rfl, rfl, ?_, ?_, ?_, ?_, by decide⟩
  · exact small_sigma_xor x y (by decide) (by decide)
  · exact small_sigma_xor x y (by decide) (by decide)
  · exact big_sigma_xor x y (by decide) (by decide) (by decide)
  · exact big_sigma_xor x y (by decide) (by decide) (by decide)

/-! ### WEXP -/

/-- `advance` by the number of the index, as one record update. -/
theorem advance_eq_update (s : State) (next : Phase) : s.advance next =
    { s with
      t := if s.t.toNat < 63 then s.t + 1 else 0
      phase := if s.t.toNat < 63 then s.phase else next } := by
  have hlt := s.t.isLt
  by_cases h : s.t = 63
  · have hn := eq_last_iff.mp h
    rw [advance_last s next h, if_neg (by omega), if_neg (by omega)]
    rfl
  · have hn : s.t.toNat ≠ 63 := fun e => h (eq_last_iff.mpr e)
    rw [advance_more s next h, if_pos (by omega), if_pos (by omega)]
    rfl

/-- Settles O14: WEXP at an index from 16 on, `advance` as a record update. -/
theorem wexpEffect : Obligations.WexpEffect := by
  rintro s cmd _ h16 h64 rfl
  have he : exec (.wexp cmd) s = execWexp s := rfl
  rw [he, execWexp_of_le s h16, advance_eq_update]
  cases s
  rfl

end Sys2Proof.Machine
end

section
/-! PROOFS. The round (42_compress_round.md): `ch` and `maj` bit by bit (R132, R133), ROUND (R136), `round` as a
bijection of the eight words (R137), and the ROUND steps of a whole COMPRESS phase (R138). -/

namespace Sys2Proof.Machine

/-! ### Choose and majority -/

/-- R132, bit by bit. -/
theorem getLsbD_ch (x y z : Word) {i : Nat} (hi : i < 32) :
    (ch x y z).getLsbD i = if x.getLsbD i then y.getLsbD i else z.getLsbD i := by
  rw [ch, BitVec.getLsbD_xor, BitVec.getLsbD_and, BitVec.getLsbD_and, BitVec.getLsbD_not, decide_eq_true hi]
  cases x.getLsbD i
  · simp
  · simp

/-- R133, bit by bit: the exclusive or of the three pairs is their or. -/
theorem getLsbD_maj (x y z : Word) (i : Nat) :
    (maj x y z).getLsbD i =
      ((x.getLsbD i && y.getLsbD i) || (x.getLsbD i && z.getLsbD i) || (y.getLsbD i && z.getLsbD i)) := by
  have hbits : ∀ a b c : Bool, ((a && b ^^ a && c) ^^ b && c) = (a && b || a && c || b && c) := by decide
  rw [maj, BitVec.getLsbD_xor, BitVec.getLsbD_xor, BitVec.getLsbD_and, BitVec.getLsbD_and, BitVec.getLsbD_and, hbits]

/-- Settles O21: the bits are said once above, the formulas are the definitions. -/
theorem chooseAndMajorityBits : Obligations.ChooseAndMajorityBits := fun x y z i hi =>
  ⟨getLsbD_ch x y z hi, getLsbD_maj x y z i, rfl, rfl⟩

/-! ### ROUND -/

/-- ROUND is `round` on v, then the control step (R136, R137). -/
theorem exec_round_eq (s : State) (cmd : BitVec 2) :
    exec (.round cmd) s = .next ((s.setV (round s.v s.kt s.wt)).advance .update) :=
  execRound_eq s

/-- Settles O16: ROUND as `round` and the control step, `advance` as a record update. -/
theorem roundEffect : Obligations.RoundEffect := by
  rintro s cmd _ h64 rfl
  rw [exec_round_eq, advance_eq_update]
  cases s
  rfl

/-! ### `round` is a bijection -/

/-- The eight words before a round, from those after it: six are copies, `temp1` is what the first word holds
beyond `temp2`, and `d` and `h` are what is left of the two sums. -/
def unround (y : Vector Word 8) (k w : Word) : Vector Word 8 :=
  let temp1 := y[0] - (S0 y[1] + maj y[1] y[2] y[3])
  #v[y[1], y[2], y[3], y[4] - temp1, y[5], y[6], y[7], temp1 - (S1 y[5] + ch y[5] y[6] y[7] + k + w)]

/-- Eight words, written out. -/
theorem eq_mk_getElem (x : Vector Word 8) : x = #v[x[0], x[1], x[2], x[3], x[4], x[5], x[6], x[7]] := by
  apply Vector.ext
  intro i hi
  interval_cases i <;> rfl

theorem round_mk (a b c d e f g h k w : Word) :
    round #v[a, b, c, d, e, f, g, h] k w =
      #v[(h + S1 e + ch e f g + k + w) + (S0 a + maj a b c), a, b, c, d + (h + S1 e + ch e f g + k + w), e, f, g] :=
  rfl

theorem unround_mk (a b c d e f g h k w : Word) :
    unround #v[a, b, c, d, e, f, g, h] k w =
      #v[b, c, d, e - (a - (S0 b + maj b c d)), f, g, h, a - (S0 b + maj b c d) - (S1 f + ch f g h + k + w)] :=
  rfl

theorem unround_round (x : Vector Word 8) (k w : Word) : unround (round x k w) k w = x := by
  have hh : x[7] + S1 x[4] + ch x[4] x[5] x[6] + k + w - (S1 x[4] + ch x[4] x[5] x[6] + k + w) = x[7] := by ring
  rw [eq_mk_getElem x, round_mk, unround_mk, add_sub_cancel_right, add_sub_cancel_right, hh]

theorem round_unround (y : Vector Word 8) (k w : Word) : round (unround y k w) k w = y := by
  have htemp1 : ∀ temp1 : Word, temp1 - (S1 y[5] + ch y[5] y[6] y[7] + k + w) + S1 y[5] + ch y[5] y[6] y[7] + k + w =
      temp1 := fun temp1 => by ring
  rw [eq_mk_getElem y, unround_mk, round_mk, htemp1, sub_add_cancel, sub_add_cancel]

/-- Settles O31: `round` has the two-sided inverse `unround`. -/
theorem roundIsBijection : Obligations.RoundIsBijection := by
  refine ⟨round_mk, ?_, fun k w => ?_⟩
  · rintro s cmd _ h64 rfl
    exact ⟨_, exec_round_eq s cmd, advance_v _ _⟩
  · exact Function.bijective_iff_has_inverse.mpr
      ⟨fun y => unround y k w, fun x => unround_round x k w, fun y => round_unround y k w⟩

/-! ### The ROUND steps of a COMPRESS phase -/

/-- What `j` ROUND steps make of a core that enters COMPRESS as `s` (R138). -/
structure AfterRounds (s : State) (j : Nat) (u : State) : Prop where
  v : u.v = roundsUpTo s.v s.W j
  W : u.W = s.W
  H : u.H = s.H
  phase : u.phase = if j < 64 then .compress else .update
  t : u.t = BitVec.ofNat 6 j

section Rounds

variable {s u : State} {j : Nat}

/-- One more ROUND step; the last one leaves the phase, and the index wraps to 0. -/
theorem AfterRounds.step (h : AfterRounds s j u) (hj : j < 64) (hr : u.pins.reset = false) :
    ∃ t, step u = .next t ∧ AfterRounds s (j + 1) t := by
  have hp : u.phase = .compress := by rw [h.phase, if_pos hj]
  have ht : u.t.toNat = j := by
    rw [h.t, BitVec.toNat_ofNat]
    exact Nat.mod_eq_of_lt hj
  have hlast : u.t = 63#6 ↔ j = 63 := by rw [eq_last_iff, ht]
  refine ⟨_, step_compress u hr hp, ?_, ?_, ?_, ?_, ?_⟩
  · rw [roundsUpTo_succ s.v s.W j hj, ← h.v]
    simp [State.kt, State.wt, ht, h.W]
  · simp [h.W]
  · simp [h.H]
  · by_cases hl : j = 63
    · simp [advance_phase, hlast, hl]
    · simp [advance_phase, hlast, hl, hp, show j < 63 by omega]
  · by_cases hl : j = 63
    · simp [advance_t, hlast, hl]
    · rw [advancePins_t, advance_t, State.setV_t, if_neg (hlast.not.mpr hl), h.t, BitVec.ofNat_add]

/-- Without reset the core performs `j` ROUND steps, up to 64. -/
theorem run_rounds (hp : s.phase = .compress) (ht : s.t = 0) (hj : j ≤ 64)
    (hr : ∀ k < j, (s.pinsAt k).reset = false) : ∃ u, run j s = .next u ∧ AfterRounds s j u := by
  induction j with
  | zero => exact ⟨s, rfl, rfl, rfl, rfl, hp, ht⟩
  | succ j ih =>
    obtain ⟨u, hu, hafter⟩ := ih (by omega) fun k hk => hr k (by omega)
    have hru : u.pins.reset = false := by
      rw [← pinsAt_zero u, pinsAt_of_run hu]
      exact hr j (by omega)
    obtain ⟨t, hstep, hnext⟩ := hafter.step (by omega) hru
    exact ⟨t, run_snoc hu hstep, hnext⟩

end Rounds

/-- Settles O32: `rounds` by its equations, the steps by induction on their number. -/
theorem compressionRounds : Obligations.CompressionRounds := by
  refine ⟨fun x Wv => ⟨rfl, rfl, roundsUpTo_succ x Wv⟩, fun s j hp ht hj hr => ?_⟩
  obtain ⟨u, hu, hafter⟩ := run_rounds hp ht hj hr
  refine ⟨u, hu, hafter.v, hafter.W, hafter.H, ?_⟩
  rintro rfl
  exact ⟨hafter.v, hafter.phase, hafter.t⟩

end Sys2Proof.Machine
end

section
/-! PROOFS. The state update (43_state_update.md): HACC (R152, R154), `compress` (R155), the block transaction
law (R158), chaining (R159) and an idle core given nothing to do (R160). The transaction law joins two views of
one run: which phase `InTransaction` is in, by the steps still to go, and what `Finished` leaves. -/

namespace Sys2Proof.Machine

/-! ### The eight lanes -/

/-- HACC as one record update (R152). -/
theorem exec_hacc_eq (s : State) (cmd : BitVec 2) :
    exec (.hacc cmd) s = .next { s with H := addLanes s.H s.v, dvalid := true, phase := .idle } := by
  cases s
  rfl

/-- R154: a lane is the sum of its two words modulo 2^32, whatever the other lanes hold. -/
theorem toNat_addLanes_getElem (x y : Vector Word 8) {k : Nat} (h : k < 8) :
    (addLanes x y)[k].toNat = (x[k].toNat + y[k].toNat) % 2 ^ 32 := by
  rw [addLanes_getElem, BitVec.toNat_add]

/-- Settles O17: the new H is `addLanes` of H and v, lane by lane. -/
theorem haccEffect : Obligations.HaccEffect := fun s cmd =>
  ⟨addLanes s.H s.v, exec_hacc_eq s cmd, fun _ h => toNat_addLanes_getElem s.H s.v h⟩

/-- Settles O34: the last step of `compress` is `addLanes`. -/
theorem compressIsItsParts : Obligations.CompressIsItsParts := fun Hin blk k h => by
  rw [compress, addLanes_getElem]

/-! ### An idle core, and chained transactions -/

/-- Settles O36: by `run_idle` only the input fields differ, and the ports show neither. -/
theorem idleCoreHolds : Obligations.IdleCoreHolds := by
  intro s n hp hf
  obtain ⟨p, l, hrun⟩ := run_idle hp hf
  exact ⟨s.setPins p l, hrun, rfl, rfl⟩

/-- Settles O35: the two equations define `hashBlocks`, and the run is `run_message`. -/
theorem chainingLaw : Obligations.ChainingLaw :=
  ⟨fun _ => ⟨rfl, fun _ _ => rfl⟩, fun _ _ _ hp hf => run_message hp hf⟩

/-! ### The block transaction law -/

section Transaction

variable {s : State} {Hin : Vector Word 8} {blk : Block}

/-- One step before its end a transaction is in UPDATE. -/
theorem InTransaction.update_of_stepsToReady (h : InTransaction s Hin blk) (hn : s.stepsToReady = 1) :
    s.phase = .update := by
  have hlt := s.t.isLt
  cases hp : s.phase with
  | idle => exact absurd hp h.busy
  | expand =>
    rw [stepsToReady_of_expand hp] at hn
    omega
  | compress =>
    rw [stepsToReady_of_compress hp] at hn
    omega
  | update => rfl

/-- During a transaction the ports show a busy core and the hash state it began with. -/
theorem InTransaction.outputs_eq (h : InTransaction s Hin blk) : s.outputs = ⟨false, false, joinWords Hin⟩ := by
  have hready : s.ready = false := beq_false_of_ne h.busy
  have hvalid : s.digestValid = false := h.control.busy h.busy
  rw [State.outputs, hready, hvalid, State.digest, h.H]

/-- After a transaction the ports show its result. -/
theorem Finished.outputs_eq (h : Finished s Hin blk) :
    s.outputs = ⟨true, true, joinWords (compress Hin blk)⟩ := by
  have hready : s.ready = true := beq_iff_eq.mpr h.phase
  have hvalid : s.digestValid = true := h.dvalid
  rw [State.outputs, hready, hvalid, State.digest, h.H]

/-- More than 65 steps before its end a transaction performs WEXP. -/
theorem InTransaction.performs_wexp (h : InTransaction s Hin blk) (hr : s.pins.reset = false)
    (hn : 65 < s.stepsToReady) : s.fetch.mnemonic = "WEXP" ∧ s.t.toNat + s.stepsToReady = 129 := by
  obtain ⟨hp, ht⟩ := h.expand_of_stepsToReady hn
  rw [fetch_of_expand s hr hp]
  exact ⟨rfl, ht⟩

/-- From 65 to 2 steps before its end a transaction performs ROUND. -/
theorem InTransaction.performs_round (h : InTransaction s Hin blk) (hr : s.pins.reset = false)
    (h1 : 1 < s.stepsToReady) (hn : s.stepsToReady ≤ 65) :
    s.fetch.mnemonic = "ROUND" ∧ s.t.toNat + s.stepsToReady = 65 := by
  obtain ⟨hp, ht⟩ := h.compress_of_stepsToReady h1 hn
  rw [fetch_of_compress s hr hp]
  exact ⟨rfl, ht⟩

/-- The last step of a transaction performs HACC. -/
theorem InTransaction.performs_hacc (h : InTransaction s Hin blk) (hr : s.pins.reset = false)
    (hn : s.stepsToReady = 1) : s.fetch.mnemonic = "HACC" := by
  rw [fetch_of_update s hr (h.update_of_stepsToReady hn)]
  rfl

end Transaction

/-- Settles O33: `j` steps after it began the transaction has `114 - j` to go, which says what it performs;
`run_transaction` says what it leaves. -/
theorem blockTransactionLaw : Obligations.BlockTransactionLaw := by
  rintro s _ hp hr hc rfl hb
  refine ⟨fetch_of_idle_cmd s hr hc hp, fun j h1 h113 => ?_, ?_⟩
  · obtain ⟨j, rfl⟩ := Nat.exists_eq_add_of_le' h1
    have hpins : ∀ k ≤ j, (s.pinsAt k).reset = false
      | 0, _ => hr
      | k + 1, hk => hb (k + 1) (by omega) (by omega)
    obtain ⟨u, hu, hi, hsteps⟩ := run_into_transaction hp hc (by omega) hpins
    have hru : u.pins.reset = false := by
      rw [← pinsAt_zero u, pinsAt_of_run hu]
      exact hb (j + 1) h1 h113
    refine ⟨u, hu, hi.outputs_eq, fun h48 => ?_, fun h49 h112 => ?_, fun hlast => ?_⟩
    · obtain ⟨hm, ht⟩ := hi.performs_wexp hru (by omega)
      exact ⟨hm, by omega⟩
    · obtain ⟨hm, ht⟩ := hi.performs_round hru (by omega) (by omega)
      exact ⟨hm, by omega⟩
    · exact hi.performs_hacc hru (by omega)
  · obtain ⟨t, ht, hf⟩ := run_transaction hr hp hc fun k hk => hb (k + 1) (by omega) (by omega)
    exact ⟨t, ht, hf.phase, hf.t, hf.dvalid, hf.H, hf.W, hf.v, hf.outputs_eq⟩

end Sys2Proof.Machine
end

section
/-! PROOFS. The host's duties (44_host_protocol.md): padding (R166, R167), segmentation (R169), the digest as bytes
and as text (R173, R174), and the digest a host reads for its message (R171, R172, R175). -/

namespace Sys2Proof.Machine

/-! ### Padding -/

theorem pad_of_lt {msg : List Byte} (h : msg.length < 2 ^ 61) :
    pad msg = .ok (msg ++ [0x80] ++ List.replicate (padZeros msg.length) 0 ++ be64 (8 * msg.length)) :=
  if_pos h

theorem pad_of_le {msg : List Byte} (h : 2 ^ 61 ≤ msg.length) : pad msg = .error .messageTooLong :=
  if_neg (Nat.not_lt.mpr h)

/-- R166: the remainder in `padZeros` is the one of `55 - L`. -/
theorem padZeros_eq_emod (L : Nat) : (padZeros L : ℤ) = (55 - (L : ℤ)) % 64 := by
  unfold padZeros
  omega

@[simp] theorem length_be64 (n : Nat) : (be64 n).length = 8 := rfl

theorem bigEndian_be64 {n : Nat} (h : n < 2 ^ 64) : bigEndian (be64 n) = n :=
  bigEndian_digits _ n 8 (fun _ _ => BitVec.toNat_ofNat _ 8) h

/-- Settles O45: the zeros are `padZeros` many, the last eight bytes are `be64`. -/
theorem paddingShape : Obligations.PaddingShape := by
  intro msg h
  have hz := padZeros_eq_emod msg.length
  exact ⟨_, _, pad_of_lt h, hz, by omega, by omega, length_be64 _, bigEndian_be64 (by omega), by omega⟩

/-- Settles O46: `sha256` refuses what `pad` refuses. -/
theorem longMessageRefused : Obligations.LongMessageRefused := fun _ h =>
  ⟨pad_of_le h, by rw [sha256, pad_of_le h]; rfl⟩

/-! ### Segmentation -/

theorem getElem?_segment {padded : List Byte} {n : Nat} (h : n < padded.length / 64) :
    (segment padded)[n]? = some (blockOfBytes ((padded.drop (64 * n)).take 64)) := by
  simp [segment, h]

/-- Settles O47: a block has the bytes it was made of (`blockByte_blockOfBytes`). -/
theorem segmentationBytes : Obligations.SegmentationBytes := by
  intro padded N hl
  refine ⟨by simp [segment, hl], fun n j hn hj => ?_⟩
  refine ⟨_, padded[64 * n + j], getElem?_segment (by omega), List.getElem?_eq_getElem _, ?_⟩
  have hlen : ((padded.drop (64 * n)).take 64).length = 64 := by
    rw [List.length_take, List.length_drop]
    omega
  have hbyte := blockByte_blockOfBytes _ hlen j hj
  rwa [List.getElem_take, List.getElem_drop] at hbyte

/-! ### The digest as bytes -/

@[simp] theorem length_wordBytes (w : Word) : (wordBytes w).length = 4 := rfl

theorem getElem?_wordBytes (w : Word) {j : Nat} (h : j < 4) :
    (wordBytes w)[j]? = some (w.extractLsb' (8 * (3 - j)) 8) := by
  have hj : (List.range 4)[j]? = some j := List.getElem?_range h
  rw [wordBytes, List.getElem?_map, hj, Option.map_some, BitVec.extractLsb', Nat.shiftRight_eq_div_pow]

@[simp] theorem length_serialize (H : Vector Word 8) : (serialize H).length = 32 := by
  rw [serialize, length_flatMap_of_length _ _ 4 length_wordBytes, Vector.length_toList]

/-- R173: byte `j` of word `k`. -/
theorem getElem?_serialize (H : Vector Word 8) {k j : Nat} (hk : k < 8) (hj : j < 4) :
    (serialize H)[4 * k + j]? = some (H[k].extractLsb' (8 * (3 - j)) 8) := by
  rw [serialize, getElem?_flatMap_of_length _ _ 4 length_wordBytes k j (by simpa) hj, Vector.getElem_toList,
    getElem?_wordBytes _ hj]

/-- A slice of a slice. -/
theorem extractLsb'_extractLsb' {w i m n : Nat} (x : BitVec w) (start : Nat) (h : i + n ≤ m) :
    (x.extractLsb' start m).extractLsb' i n = x.extractLsb' (start + i) n := by
  ext k hk
  have hm : i + k < m := by omega
  simp [hm, Nat.add_assoc]

/-- Byte `j` of word `k` of the eight joined. -/
theorem extractLsb'_byte_joinWords (H : Vector Word 8) {k j : Nat} (hk : k < 8) (hj : j < 4) :
    H[k].extractLsb' (8 * (3 - j)) 8 = (joinWords H).extractLsb' (248 - 8 * (4 * k + j)) 8 := by
  rw [← extractLsb'_joinWords H k hk, extractLsb'_extractLsb' _ _ (by omega),
    show 224 - 32 * k + 8 * (3 - j) = 248 - 8 * (4 * k + j) by omega]

theorem toNat_byte (w : Word) (n : Nat) : (w.extractLsb' n 8).toNat = w.toNat / 2 ^ n % 256 := by
  rw [BitVec.extractLsb'_toNat, Nat.shiftRight_eq_div_pow]

/-- Settles O48: `getElem?_serialize`, by value and on the port. -/
theorem serializedDigest : Obligations.SerializedDigest := fun s =>
  ⟨length_serialize s.H, fun _ _ hk hj =>
    ⟨_, getElem?_serialize s.H hk hj, toNat_byte _ _, extractLsb'_byte_joinWords s.H hk hj⟩⟩

/-! ### The digest as text -/

@[simp] theorem length_hexByte (b : Byte) : (hexByte b).length = 2 := rfl

/-- The digit for a number below 16. -/
theorem getD_hexDigits {d : Nat} (h : d < 16) : hexDigits.getD d '0' = hexDigits[d]'h :=
  List.getD_eq_getElem _ _ h

/-- R174: the high nibble, then the low one. -/
theorem getElem?_hexByte (b : Byte) {i : Nat} (h : i < 2) :
    (hexByte b)[i]? = some (hexDigits.getD (b.toNat / 16 ^ (1 - i) % 16) '0') := by
  have hb := b.isLt
  match i, h with
  | 0, _ =>
    have hhi : b.toNat / 16 ^ (1 - 0) % 16 = b.toNat / 16 := by omega
    rw [hhi]
    rfl
  | 1, _ =>
    have hlo : b.toNat / 16 ^ (1 - 1) % 16 = b.toNat % 16 := by omega
    rw [hlo]
    rfl

@[simp] theorem length_hex (bytes : List Byte) : (hex bytes).length = 2 * bytes.length := by
  rw [hex, String.length_ofList, length_flatMap_of_length _ _ 2 length_hexByte, Nat.mul_comm]

/-- Digit `i` of byte `n`. -/
theorem getElem?_hex {bytes : List Byte} {n i : Nat} {b : Byte} (hn : bytes[n]? = some b) (hi : i < 2) :
    (hex bytes).toList[2 * n + i]? = some (hexDigits.getD (b.toNat / 16 ^ (1 - i) % 16) '0') := by
  obtain ⟨hlt, rfl⟩ := List.getElem?_eq_some_iff.mp hn
  rw [hex, String.toList_ofList, getElem?_flatMap_of_length _ _ 2 length_hexByte n i hlt hi, getElem?_hexByte _ hi]

/-- A nibble of a byte of a number is a nibble of the number. -/
theorem nibble_of_byte (x q : Nat) {i : Nat} (h : i < 2) :
    x / 2 ^ (8 * q) % 256 / 16 ^ i % 16 = x / 16 ^ (2 * q + i) % 16 := by
  rw [Nat.pow_add, ← Nat.div_div_eq_div_mul, Nat.pow_mul, Nat.pow_mul]
  generalize x / (2 ^ 8) ^ q = y
  interval_cases i <;> omega

/-- Settles O49: digit `j` of a word is nibble `j % 2` of its byte `j / 2`. -/
theorem hexText : Obligations.HexText := by
  refine fun H => ⟨by simp, fun k j hk hj => ⟨_, Nat.mod_lt _ (by decide), rfl, ?_⟩⟩
  have hdigit := getElem?_hex (getElem?_serialize H hk (show j / 2 < 4 by omega)) (show j % 2 < 2 by omega)
  rwa [toNat_byte, nibble_of_byte _ _ (by omega), show 2 * (3 - j / 2) + (1 - j % 2) = 7 - j by omega,
    getD_hexDigits (Nat.mod_lt _ (by decide)), show 2 * (4 * k + j / 2) + j % 2 = 8 * k + j by omega] at hdigit

/-! ### The digest of a message -/

theorem sha256_of_pad {msg padded : List Byte} (h : pad msg = .ok padded) :
    sha256 msg = .ok (hashBlocks IV (segment padded)) := by
  rw [sha256, h]
  rfl

theorem segment_ne_nil_of_pad {msg padded : List Byte} (h : pad msg = .ok padded) : segment padded ≠ [] := by
  rw [← List.length_pos_iff, length_segment_of_pad h]
  exact Nat.succ_pos _

/-- Settles O50: `run_message`, a padded message having at least one block. -/
theorem digestOfMessage : Obligations.DigestOfMessage := by
  intro s msg padded items after _ hp hpad hitems hf
  obtain ⟨t, hrun, hpt, hH, hd⟩ := run_message hp hf
  rw [hitems] at hH
  have hne : items ≠ [] := by
    rintro rfl
    exact segment_ne_nil_of_pad hpad hitems.symm
  refine ⟨t, _, hrun, sha256_of_pad hpad, ?_, congrArg serialize hH⟩
  simp [State.outputs, State.ready, State.digestValid, State.digest, hpt, hH, hd hne]

end Sys2Proof.Machine
end

section
/-! PROOFS. Exceptions and simultaneous events (60_exceptions.md): no step stops (R190), and what a step performs
when several inputs ask for something at once (R195). -/

namespace Sys2Proof.Machine

/-- Settles O25: every operation answers a next state, so the step that fetches it does. -/
theorem stepIsTotal : Obligations.StepIsTotal := by
  refine ⟨fun s => ?_, fun i s => exec_total s i⟩
  obtain ⟨u, hu⟩ := exec_total s s.fetch
  exact ⟨_, step_of_exec s rfl hu⟩

/-- Settles O26: `fetch` by `reset`, by the busy phases, and by `cmd` in IDLE; both strobes at once select RSVD,
which has no assignment. -/
theorem simultaneousEvents : Obligations.SimultaneousEvents := by
  refine fun s => ⟨fetch_of_reset s, fetch_of_expand s, fetch_of_compress s, fetch_of_update s, fun hr hp => ?_⟩
  refine ⟨fun hc => fetch_of_idle_cmd s hr hc hp, fun hc => fetch_of_idle_cmd s hr hc hp,
    fun hc => fetch_of_idle_cmd s hr hc hp, fun hc => ?_⟩
  have hf : s.fetch = .rsvd := fetch_of_idle_cmd s hr hc hp
  refine ⟨hf, ?_⟩
  rw [hf]
  exact (nopAndRsvdChangeNothing s).2

end Sys2Proof.Machine
end

section
/-! PROOFS. Correct use (70_reset_and_hazards.md R216): from an INIT until the next RESET every operation reads
written words. One lemma per phase says what the marks owe there; each step is then that phase's debt paid. -/

namespace Sys2Proof.Machine

variable {s : State} {m : Marks}

/-! ### Written words -/

theorem allWritten_iff {x : Vector Bool 8} : allWritten x = true ↔ ∀ (k : Nat) (h : k < 8), x[k] = true := by
  simp only [allWritten, Bool.and_eq_true]
  constructor
  · intro hx k hk
    interval_cases k <;> simp [hx]
  · exact fun hx => by simp [hx]

/-- All words below the index are more than the four WEXP reads. -/
theorem scheduleWritten_of_below {W : Vector Bool 64} {t : Nat} (h16 : 16 ≤ t) (h64 : t < 64)
    (hW : ∀ (i : Nat) (h : i < 64), i < t → W[i] = true) : scheduleWritten W t h64 = true := by
  simp only [scheduleWritten, dif_pos h16, Bool.and_eq_true]
  exact ⟨⟨⟨hW _ _ (by omega), hW _ _ (by omega)⟩, hW _ _ (by omega)⟩, hW _ _ (by omega)⟩

/-- The word written at the index joins those below it. -/
theorem set_true_getElem_of_below {W : Vector Bool 64} {t : Nat} (h64 : t < 64)
    (hW : ∀ (i : Nat) (h : i < 64), i < t → W[i] = true) (i : Nat) (h : i < 64) (hi : i < t + 1) :
    (W.set t true h64)[i] = true := by
  rw [Vector.getElem_set]
  split
  · rfl
  · exact hW i h (by omega)

/-! ### What the marks owe in each phase -/

theorem dataReady_of_idle (hp : s.phase = .idle) (hH : allWritten m.H = true) : m.DataReady s :=
  ⟨hH, fun h => absurd hp h, by simp [hp], by simp [hp]⟩

theorem dataReady_of_expand (hp : s.phase = .expand) (hH : allWritten m.H = true) (hv : allWritten m.v = true)
    (hW : ∀ (i : Nat) (h : i < 64), i < s.t.toNat → m.W[i] = true) : m.DataReady s :=
  ⟨hH, fun _ => hv, fun _ => hW, by simp [hp]⟩

theorem dataReady_of_compress (hp : s.phase = .compress) (hH : allWritten m.H = true)
    (hv : allWritten m.v = true) (hW : ∀ (i : Nat) (h : i < 64), m.W[i] = true) : m.DataReady s :=
  ⟨hH, fun _ => hv, by simp [hp], fun _ => hW⟩

theorem dataReady_of_update (hp : s.phase = .update) (hH : allWritten m.H = true) (hv : allWritten m.v = true) :
    m.DataReady s :=
  ⟨hH, fun _ => hv, by simp [hp], by simp [hp]⟩

/-! ### Each operation -/

/-- INIT writes H, and an idle core owes nothing else. -/
theorem dataReady_after_init (hp : s.phase = .idle) :
    (m.after s .init).DataReady ((s.setH IV).setDvalid false).advancePins :=
  dataReady_of_idle (by simp [hp]) (allWritten_iff.mpr fun k hk => by simp [Marks.after])

/-- NEXT copies the marks of H to v, and the sixteen words it loads are those below its index. -/
theorem Marks.DataReady.after_next (h : m.DataReady s) (blk : Block) :
    (m.after s (.next blk)).DataReady
      ((((s.setW (wload blk s.W)).setV s.H).setControl .expand 16).setDvalid false).advancePins := by
  refine dataReady_of_expand (by simp) h.H h.H fun i hi hlt => ?_
  have h16 : i < 16 := by simpa using hlt
  simp [Marks.after, h16]

/-- WEXP in EXPAND reads words below its index and adds one to them. -/
theorem Marks.DataReady.step_wexp {t : State} (h : m.DataReady s) (hr : s.pins.reset = false)
    (hp : s.phase = .expand) (h16 : 16 ≤ s.t.toNat) (hs : step s = .next t) :
    m.ReadsWritten s s.fetch ∧ (m.after s s.fetch).DataReady t := by
  have hv := h.v (by simp [hp])
  have hW := h.expand hp
  have hread := scheduleWritten_of_below h16 s.t.isLt hW
  have hnew := set_true_getElem_of_below s.t.isLt hW
  cases hs.symm.trans (step_expand s hr hp h16)
  rw [fetch_of_expand s hr hp]
  refine ⟨hread, ?_⟩
  simp only [Marks.after, hread]
  by_cases hl : s.t = 63#6
  · refine dataReady_of_compress (by simp [advance_phase, hl]) h.H hv fun i hi => hnew i hi ?_
    rw [eq_last_iff.mp hl]
    omega
  · refine dataReady_of_expand (by simp [advance_phase, hl, hp]) h.H hv fun i hi hlt => hnew i hi ?_
    simpa [advance_t, hl, toNat_succ_of_ne_last hl] using hlt

/-- ROUND in COMPRESS reads v and one word of W, so that the eight words it writes are written. -/
theorem Marks.DataReady.step_round {t : State} (h : m.DataReady s) (hr : s.pins.reset = false)
    (hp : s.phase = .compress) (hs : step s = .next t) :
    m.ReadsWritten s s.fetch ∧ (m.after s s.fetch).DataReady t := by
  have hv := h.v (by simp [hp])
  have hW := h.compress hp
  have hv' : allWritten (m.after s (.round s.pins.cmd)).v = true := by
    simp only [Marks.after, hv, hW]
    simp [allWritten, allWritten_iff.mp hv]
  cases hs.symm.trans (step_compress s hr hp)
  rw [fetch_of_compress s hr hp]
  refine ⟨⟨hv, hW _ _⟩, ?_⟩
  by_cases hl : s.t = 63#6
  · exact dataReady_of_update (by simp [advance_phase, hl]) h.H hv'
  · exact dataReady_of_compress (by simp [advance_phase, hl, hp]) h.H hv' hW

/-- HACC in UPDATE adds v to H, both written. -/
theorem Marks.DataReady.step_hacc {t : State} (h : m.DataReady s) (hr : s.pins.reset = false)
    (hp : s.phase = .update) (hs : step s = .next t) :
    m.ReadsWritten s s.fetch ∧ (m.after s s.fetch).DataReady t := by
  have hv := h.v (by simp [hp])
  cases hs.symm.trans (step_update s hr hp)
  rw [fetch_of_update s hr hp]
  refine ⟨⟨h.H, hv⟩, dataReady_of_idle (by simp) (allWritten_iff.mpr fun k hk => ?_)⟩
  simp [Marks.after, allWritten_iff.mp h.H, allWritten_iff.mp hv]

/-- Settles O44: by the cases of a step; the control invariant is needed for WEXP only, whose index is at least
16. -/
theorem correctUseReadsWrittenWords : Obligations.CorrectUseReadsWrittenWords := by
  constructor
  · intro m s t hp hf h
    cases h.symm.trans (step_of_exec s hf rfl)
    rw [hf]
    exact dataReady_after_init hp
  · intro m s t inv hD hr h
    obtain ⟨hreset, -, -⟩ | ⟨-, hp, hc, rfl⟩ | ⟨-, hp, -, hf, rfl⟩ | ⟨-, -, -, hf, rfl⟩ | ⟨-, hp, -⟩ | ⟨-, hp, -⟩ |
      ⟨-, hp, -⟩ := step_cases s h
    · exact absurd (hr.symm.trans hreset) nofun
    · have hD' : m.DataReady s.advancePins := dataReady_of_idle (by simpa using hp) hD.H
      obtain ⟨-, hf⟩ | ⟨-, hf⟩ := hc
      all_goals exact hf ▸ ⟨trivial, hD'⟩
    · rw [hf]
      exact ⟨trivial, dataReady_after_init hp⟩
    · rw [hf]
      exact ⟨hD.H, hD.after_next s.pins.block⟩
    · exact hD.step_wexp hr hp (inv.expand hp) h
    · exact hD.step_round hr hp h
    · exact hD.step_hacc hr hp h

end Sys2Proof.Machine
end

section
/-! PROOFS. How long a busy core stays busy (R227), and commands held on the pins (70_reset_and_hazards.md R219).
`stepsToReady` needs neither data nor invariant: every step without reset takes one from it. -/

namespace Sys2Proof.Machine

variable {s t : State}

/-! ### The countdown -/

theorem stepsToReady_of_idle (hp : s.phase = .idle) : s.stepsToReady = 0 := by
  simp only [State.stepsToReady, hp]

theorem stepsToReady_le (h : ControlInv s) : s.stepsToReady ≤ 113 := by
  cases hp : s.phase with
  | idle => simp [stepsToReady_of_idle hp]
  | expand =>
    have h16 := h.expand hp
    rw [stepsToReady_of_expand hp]
    omega
  | compress =>
    rw [stepsToReady_of_compress hp]
    omega
  | update => simp [stepsToReady_of_update hp]

theorem ready_iff_stepsToReady_eq_zero : s.ready = true ↔ s.stepsToReady = 0 := by
  rw [State.ready, beq_iff_eq]
  exact ⟨stepsToReady_of_idle, fun h => by_contra fun hp => stepsToReady_ne_zero hp h⟩

theorem stepsToReady_congr (hp : s.phase = t.phase) (ht : s.t = t.t) : s.stepsToReady = t.stepsToReady := by
  rw [State.stepsToReady, State.stepsToReady, hp, ht]

@[simp] theorem stepsToReady_advancePins : s.advancePins.stepsToReady = s.stepsToReady :=
  stepsToReady_congr (by simp) (by simp)

/-- The control step of WEXP, on to COMPRESS after the last index (R117). -/
theorem stepsToReady_advance_of_expand (hp : s.phase = .expand) :
    (s.advance .compress).stepsToReady + 1 = s.stepsToReady := by
  rw [stepsToReady_of_expand hp]
  by_cases hl : s.t = 63#6
  · rw [stepsToReady_of_compress (by simp [advance_phase, hl])]
    simp [advance_t, hl]
  · have hlt := s.t.isLt
    rw [stepsToReady_of_expand (by simp [advance_phase, hl, hp]), advance_t, if_neg hl, toNat_succ_of_ne_last hl]
    omega

/-- The control step of ROUND, on to UPDATE after the last index (R136). -/
theorem stepsToReady_advance_of_compress (hp : s.phase = .compress) :
    (s.advance .update).stepsToReady + 1 = s.stepsToReady := by
  rw [stepsToReady_of_compress hp]
  by_cases hl : s.t = 63#6
  · rw [stepsToReady_of_update (by simp [advance_phase, hl])]
    simp [hl]
  · have hlt := s.t.isLt
    rw [stepsToReady_of_compress (by simp [advance_phase, hl, hp]), advance_t, if_neg hl,
      toNat_succ_of_ne_last hl]
    omega

/-- A step without reset brings a busy core one step nearer to its end, whatever its data. -/
theorem stepsToReady_of_step (h : step s = .next t) (hr : s.pins.reset = false) (hp : s.phase ≠ .idle) :
    t.stepsToReady + 1 = s.stepsToReady := by
  obtain ⟨hreset, -, -⟩ | ⟨-, hi, -⟩ | ⟨-, hi, -⟩ | ⟨-, hi, -⟩ | ⟨-, hp, -, u, hu, rfl⟩ | ⟨-, hp, -, rfl⟩ |
    ⟨-, hp, -, rfl⟩ := step_cases s h
  · exact absurd (hr.symm.trans hreset) nofun
  · exact absurd hi hp
  · exact absurd hi hp
  · exact absurd hi hp
  · obtain ⟨w, n, hw⟩ := execWexp_eq_setW s
    cases hu.symm.trans hw
    rw [stepsToReady_advancePins, stepsToReady_advance_of_expand (by simpa using hp)]
    exact stepsToReady_congr rfl rfl
  · rw [stepsToReady_advancePins, stepsToReady_advance_of_compress (by simpa using hp)]
    exact stepsToReady_congr rfl rfl
  · rw [stepsToReady_advancePins, stepsToReady_of_idle rfl, stepsToReady_of_update hp]

/-- Without reset the countdown runs for as many steps as it has left. -/
theorem run_counts_down {n : Nat} (hn : n ≤ s.stepsToReady) (hr : ∀ k < n, (s.pinsAt k).reset = false) :
    ∃ t, run n s = .next t ∧ t.stepsToReady + n = s.stepsToReady := by
  induction n with
  | zero => exact ⟨s, rfl, rfl⟩
  | succ n ih =>
    obtain ⟨u, hu, hcount⟩ := ih (by omega) fun k hk => hr k (by omega)
    have hru : u.pins.reset = false := by
      rw [← pinsAt_zero u, pinsAt_of_run hu]
      exact hr n (by omega)
    have hbusy : u.phase ≠ .idle := fun hp => by
      have := stepsToReady_of_idle hp
      omega
    obtain ⟨t, ht⟩ := stepIsTotal.1 u
    have hone := stepsToReady_of_step ht hru hbusy
    exact ⟨t, run_snoc hu ht, by omega⟩

/-- Settles O37: the core is ready exactly when the countdown of `run_counts_down` is at 0. -/
theorem transactionTerminates : Obligations.TransactionTerminates := by
  refine fun s inv hr => ⟨stepsToReady_le inv, ?_, fun j hj => ?_⟩
  · obtain ⟨t, ht, hcount⟩ := run_counts_down (Nat.le_refl _) hr
    exact ⟨t, ht, ready_iff_stepsToReady_eq_zero.mpr (by omega)⟩
  · obtain ⟨t, ht, hcount⟩ := run_counts_down (Nat.le_of_lt hj) fun k hk => hr k (by omega)
    exact ⟨t, ht, Bool.eq_false_iff.mpr fun hready => by
      have := ready_iff_stepsToReady_eq_zero.mp hready
      omega⟩

/-! ### Held commands -/

/-- A NEXT held on the pins chains transactions on one block (R219). -/
theorem run_held_next {blk : Block} {n : Nat} (hp : s.phase = .idle)
    (hpins : ∀ k < 114 * n, s.pinsAt k = ⟨false, 0b10, blk⟩) :
    ∃ t, run (114 * n) s = .next t ∧ t.phase = .idle ∧ t.H = hashBlocks s.H (List.replicate n blk) := by
  induction n generalizing s with
  | zero => exact ⟨s, rfl, hp, rfl⟩
  | succ n ih =>
    have hfirst : s.pins = ⟨false, 0b10, blk⟩ := hpins 0 (by omega)
    obtain ⟨u, hu, hfin⟩ := run_transaction (s := s) (by rw [hfirst]) hp (by rw [hfirst]) fun k hk => by
      rw [hpins (k + 1) (by omega)]
    obtain ⟨t, ht, hpt, hH⟩ := ih hfin.phase fun k hk => by
      rw [pinsAt_of_run hu]
      exact hpins (114 + k) (by omega)
    refine ⟨t, ?_, hpt, ?_⟩
    · rw [Nat.mul_succ, Nat.add_comm, run_add _ _ hu, ht]
    · rw [hH, hfin.H, hfirst, List.replicate_succ, hashBlocks]

/-- An INIT in the step after HACC overwrites what HACC wrote (R219). -/
theorem run_hacc_init (hp : s.phase = .update) (hr : s.pins.reset = false) (hr' : (s.pinsAt 1).reset = false)
    (hc : (s.pinsAt 1).cmd = 0b01) : ∃ t, run 2 s = .next t ∧ t.H = IV ∧ t.dvalid = false := by
  have hacc := step_update s hr hp
  rw [← pinsAt_of_step hacc, pinsAt_zero] at hr' hc
  have hinit := step_init _ hr' (by simp) hc
  exact ⟨_, by rw [run_succ_of_step 1 hacc, run_succ_of_step 0 hinit, run_zero], by simp, by simp⟩

/-- Settles O38: the held NEXT by induction on the transactions, the held INIT by the two steps. -/
theorem heldCommandRunsAgain : Obligations.HeldCommandRunsAgain :=
  ⟨fun _ _ _ hp hpins => run_held_next hp hpins, fun _ hp hr hr' hc => run_hacc_init hp hr hr' hc⟩

end Sys2Proof.Machine
end
